-- ==== Sys2Proof/Word.lean ====
section
/-! DEFINITION. The bit-vector types of the TSU engine. -/

namespace Sys2Proof

/-- One byte of the packet buffer (10_state.md R23). -/
abbrev Byte := BitVec 8

/-- One word of the host bus, one command word (20_memory.md R51, 30_encoding.md R70). -/
abbrev Word := BitVec 32

/-- The contents of RES (10_state.md R32). -/
abbrev DWord := BitVec 64

/-- A byte address of the 512-byte host window (20_memory.md R50). -/
abbrev HostAddr := BitVec 9

end Sys2Proof
end

