-- ==== Sys2Proof/Syntax.lean ====
section
/-! DEFINITION. The commands of the TSU command set, one constructor per row of spec/opcode_table.json
(30_encoding.md R75). -/

namespace Sys2Proof

/-- A command. The operands of format CR are plain unsigned byte counts (30_encoding.md R74). -/
inductive Instr where
  | nop
  | hdr | sync | tei | pusi | tpri | pid | tsc | afc | cc | hasaf | haspl
  | aflen | afflags | disc | rai | espri | haspcr | hasopcr | hasspl | hastpd | hasext
  | pcr | opcr | splice | tpdlen
  | offpcr | offopcr | offspl | offtpd | offext
  | ploff | pllen
  | nanos
  | crc32 (start len : Nat)
  | crcchk (start len : Nat)
deriving DecidableEq, Repr

/-- The two command formats, with the command each opcode selects: C0 has no operands, CR a byte range
(30_encoding.md R71 to R73). -/
inductive Form where
  | c0 (i : Instr)
  | crCrc32
  | crCrcchk
deriving DecidableEq, Repr

/-- Why a command word is illegal: the three cases of 30_encoding.md R76, in its order. -/
inductive Reject where
  /-- R76 (1): OPC is none of the defined opcodes. -/
  | reservedOpcode
  /-- R76 (2): format C0 with a non-zero bit among 23:0. -/
  | operandBitsNotZero
  /-- R76 (3): format CR with a non-zero bit among 23:16. -/
  | reservedFieldNotZero
deriving DecidableEq, Repr

/-- What the decoder answers on a word. -/
inductive Decoded where
  | command (i : Instr)
  | illegal (why : Reject)
deriving DecidableEq, Repr

end Sys2Proof
end

