-- ==== Sys2Proof/WellFormed.lean ====
section
/-! DEFINITION. Which commands have an encoding: the operands of format CR fit the 8-bit fields A and B
(30_encoding.md R71, R73). Values with start + len > 188 are legal encodings. -/

namespace Sys2Proof

/-- The value fits an 8-bit operand field. -/
def fitsByte (n : Nat) : Bool := n < 256

/-- A command that some command word encodes. -/
def WellFormed : Instr → Bool
  | .crc32 start len => fitsByte start && fitsByte len
  | .crcchk start len => fitsByte start && fitsByte len
  | _ => true

end Sys2Proof
end

