-- ==== Sys2Proof/Decode.lean ====
section
/-! DEFINITION. The command decoder (30_encoding.md R76), total on 32-bit words, and the encoder (R79), each written
from the opcode map R75. Also the bit-field notation of 00_scope.md R6 that the whole model uses. -/

namespace Sys2Proof

/-- `v[hi:lo]`: the field of `v` from bit `hi` down to bit `lo`, as an unsigned number (00_scope.md R6). -/
def bits (v hi lo : Nat) : Nat := v / 2 ^ lo % 2 ^ (hi - lo + 1)

/-- `v[i]`: the single bit `i` of `v`, as 0 or 1 (00_scope.md R6). -/
def bit (v i : Nat) : Nat := bits v i i

/-- The opcode map: the command form each OPC value selects; every other value is reserved (30_encoding.md R75, R77). -/
def formOf (opc : Nat) : Option Form :=
  match opc with
  | 0x00 => some (.c0 .nop)
  | 0x10 => some (.c0 .hdr)
  | 0x11 => some (.c0 .sync)
  | 0x12 => some (.c0 .tei)
  | 0x13 => some (.c0 .pusi)
  | 0x14 => some (.c0 .tpri)
  | 0x15 => some (.c0 .pid)
  | 0x16 => some (.c0 .tsc)
  | 0x17 => some (.c0 .afc)
  | 0x18 => some (.c0 .cc)
  | 0x19 => some (.c0 .hasaf)
  | 0x1A => some (.c0 .haspl)
  | 0x20 => some (.c0 .aflen)
  | 0x21 => some (.c0 .afflags)
  | 0x22 => some (.c0 .disc)
  | 0x23 => some (.c0 .rai)
  | 0x24 => some (.c0 .espri)
  | 0x25 => some (.c0 .haspcr)
  | 0x26 => some (.c0 .hasopcr)
  | 0x27 => some (.c0 .hasspl)
  | 0x28 => some (.c0 .hastpd)
  | 0x29 => some (.c0 .hasext)
  | 0x30 => some (.c0 .pcr)
  | 0x31 => some (.c0 .opcr)
  | 0x32 => some (.c0 .splice)
  | 0x33 => some (.c0 .tpdlen)
  | 0x38 => some (.c0 .offpcr)
  | 0x39 => some (.c0 .offopcr)
  | 0x3A => some (.c0 .offspl)
  | 0x3B => some (.c0 .offtpd)
  | 0x3C => some (.c0 .offext)
  | 0x40 => some (.c0 .ploff)
  | 0x41 => some (.c0 .pllen)
  | 0x50 => some (.c0 .nanos)
  | 0x60 => some .crCrc32
  | 0x61 => some .crCrcchk
  | _ => none

/-- The fields OPC, RSV, A and B of a command word (30_encoding.md R71). -/
def opcField (w : Word) : Nat := bits w.toNat 31 24
def rsvField (w : Word) : Nat := bits w.toNat 23 16
def aField (w : Word) : Nat := bits w.toNat 15 8
def bField (w : Word) : Nat := bits w.toNat 7 0

/-- Decoding a command word (30_encoding.md R76): the checks in the order the rule numbers them. -/
def decode (w : Word) : Decoded :=
  match formOf (opcField w) with
  | none => .illegal .reservedOpcode
  | some (.c0 i) => if bits w.toNat 23 0 = 0 then .command i else .illegal .operandBitsNotZero
  | some .crCrc32 =>
    if rsvField w = 0 then .command (.crc32 (aField w) (bField w)) else .illegal .reservedFieldNotZero
  | some .crCrcchk =>
    if rsvField w = 0 then .command (.crcchk (aField w) (bField w)) else .illegal .reservedFieldNotZero

/-- OPC of each command (30_encoding.md R75). -/
def opcode : Instr → Nat
  | .nop => 0x00
  | .hdr => 0x10
  | .sync => 0x11
  | .tei => 0x12
  | .pusi => 0x13
  | .tpri => 0x14
  | .pid => 0x15
  | .tsc => 0x16
  | .afc => 0x17
  | .cc => 0x18
  | .hasaf => 0x19
  | .haspl => 0x1A
  | .aflen => 0x20
  | .afflags => 0x21
  | .disc => 0x22
  | .rai => 0x23
  | .espri => 0x24
  | .haspcr => 0x25
  | .hasopcr => 0x26
  | .hasspl => 0x27
  | .hastpd => 0x28
  | .hasext => 0x29
  | .pcr => 0x30
  | .opcr => 0x31
  | .splice => 0x32
  | .tpdlen => 0x33
  | .offpcr => 0x38
  | .offopcr => 0x39
  | .offspl => 0x3A
  | .offtpd => 0x3B
  | .offext => 0x3C
  | .ploff => 0x40
  | .pllen => 0x41
  | .nanos => 0x50
  | .crc32 _ _ => 0x60
  | .crcchk _ _ => 0x61

/-- The operand bits of a command word: `(a << 8) | b` for format CR, none for format C0 (30_encoding.md R79). -/
def operandBits : Instr → Nat
  | .crc32 start len => start * 2 ^ 8 + len
  | .crcchk start len => start * 2 ^ 8 + len
  | _ => 0

/-- The command word of a well-formed command, `enc` of 30_encoding.md R79. -/
def encode (i : Instr) : Word := BitVec.ofNat 32 (opcode i * 2 ^ 24 + operandBits i)

/-- The command word whose bits the opcode table numbers as the low `nbits` of `w`, the rest zero. A command is one
word, written to CMD whole, so no byte order enters (30_encoding.md R70; 20_memory.md R55; log 10). -/
def tableWord (nbits w : Nat) : Word := BitVec.ofNat 32 (w % 2 ^ nbits)

/-- The command the decoder reads from an opcode-table word. -/
def decodeTableWord (nbits w : Nat) : Option Instr :=
  match decode (tableWord nbits w) with
  | .command i => some i
  | .illegal _ => none

end Sys2Proof
end

