-- ==== Sys2Proof/Config.lean ====
section
/-! DEFINITION. The fixed sizes and constants of the engine (00_scope.md R5). The one OPEN parameter, T_CMD, has no
number here: it is the free interleaving of the engine's turn (70_reset_and_hazards.md R250, log 5). -/

namespace Sys2Proof.Config

/-- PKT_BYTES, the size of the packet buffer (R5). -/
def pktBytes : Nat := 188

/-- HDR_BYTES, the size of the TS header (R5). -/
def hdrBytes : Nat := 4

/-- The largest legal adaptation_field_length (42_adaptation.md R131). -/
def maxAfLen : Nat := 183

/-- The reset contents of every PB byte (10_state.md R35). -/
def resetFill : Byte := 0xFF#8

/-- The CRC polynomial (R5, 44_crc.md R180). -/
def crcPoly : Word := 0x04C11DB7#32

/-- The CRC seed (R5, 44_crc.md R181). -/
def crcSeed : Word := 0xFFFFFFFF#32

end Sys2Proof.Config
end

