-- ==== Sys2Proof/Machine/State.lean ====
section
/-! DEFINITION. The state of the engine (10_state.md R20), the turns of its three agents (40_control.md R100), the
reasons a step can stop, and the state after reset (R35). -/

namespace Sys2Proof.Machine

/-- The packet buffer PB (10_state.md R23): its bytes other than the reset fill, by rising index (log 6). -/
abbrev Memory := List Host.Cell

/-- The error codes of STATUS.ERR; codes 5 to 15 are reserved and never written (60_exceptions.md R201, log 7). -/
inductive ErrCode where
  /-- NONE, code 0: the command completed. -/
  | none
  /-- ILL, code 1: reserved opcode or non-zero reserved field. -/
  | ill
  /-- NOAF, code 2: an adaptation-field command on a packet without an adaptation field. -/
  | noaf
  /-- OOB, code 3: a length would index past byte 187. -/
  | oob
  /-- OVF, code 4: a NANOS result would not fit in 64 bits. -/
  | ovf
deriving DecidableEq, Repr

/-- One turn of one agent (40_control.md R100): a host bus read or write, the engine's completion step, or reset. -/
inductive Turn where
  | hostRead (a : HostAddr)
  | hostWrite (a : HostAddr) (w : Word)
  | engine
  | reset
deriving DecidableEq, Repr

/-- What a host address selects (20_memory.md R52). -/
inductive HostReg where
  | cmd
  | status
  | resLo
  | resHi
  | pbw (k : Nat)
  | reserved
deriving DecidableEq, Repr

/-- The state. `agenda` and `rdata` are the model's own fields and stand for agents outside the engine; all the others
are the engine's state as 10_state.md R20 lists it. -/
structure State where
  /-- PB (R23). -/
  pb     : Memory
  /-- CMD (R24). -/
  cmd    : Word
  /-- STATUS.BUSY (R26). -/
  busy   : Bool
  /-- STATUS.P (R27). -/
  p      : Bool
  /-- STATUS.ERR (R28). -/
  err    : ErrCode
  /-- STATUS.CMDOVR (R29). -/
  cmdovr : Bool
  /-- STATUS.PBLOCK (R30). -/
  pblock : Bool
  /-- RES (R32). -/
  res    : DWord
  /-- PEND (R33). -/
  pend   : Option Word
  /-- The word the last host read returned (DESIGN CHOICE, log 3). -/
  rdata  : Word
  /-- The turns still to come, the next one first (DESIGN CHOICE, log 1). -/
  agenda : List Turn
deriving DecidableEq, Repr

/-- Why the machine stops. -/
inductive Fault where
  /-- Raised by `readBytes`, the one operation with which a command reads PB, for a window that is not inside the 188
  bytes: MemRead is "defined only when i+n ≤ 188" (00_scope.md R8). SAFE: no value is made up. No command asks for such
  a window (log 6). -/
  | pbIndexOutOfRange
deriving DecidableEq, Repr

/-- Why the machine has no meaning for a command. -/
inductive Refusal where
  /-- Raised by `exec` for a command that has no meaning yet, under its mnemonic. SAFE. No arm of `exec` raises it. -/
  | notModelled (mnemonic : String)
deriving DecidableEq, Repr

/-- The outcome of one step of this machine. -/
abbrev Outcome := Host.Outcome State Fault Refusal

/-- The state after reset (10_state.md R35): PB all 0xFF, everything else of the engine 0 or none. The model's own
fields are `rdata` 0 (DESIGN CHOICE, log 3) and `agenda` empty (DESIGN CHOICE, log 4). -/
def State.reset : State where
  pb     := []
  cmd    := 0x00000000#32
  busy   := false
  p      := false
  err    := .none
  cmdovr := false
  pblock := false
  res    := 0#64
  pend   := none
  rdata  := 0#32
  agenda := []

end Sys2Proof.Machine
end

