-- ==== Sys2Proof/Machine/Ops.lean ====
section
/-! DEFINITION. The shared operations over the packet buffer and the registers: reading and writing PB, acceptance of
a command, and the three ways a command ends (00_scope.md R8, R9; 40_control.md R101, R102). The engine has no
exception entry and no return (60_exceptions.md R205); `State.raise` is how it reports an error (R200). -/

namespace Sys2Proof.Machine

/-! ### The packet buffer -/

/-- `PB[a]`: an index that is not listed holds the reset fill (10_state.md R35). -/
def Memory.readByte : Memory → Nat → Byte
  | [], _ => Config.resetFill
  | (b, v) :: rest, a => if b = a then v else Memory.readByte rest a

/-- `PB[a] <- v`, keeping the indices rising and the reset fill unlisted (log 6). -/
def Memory.writeByte : Memory → Nat → Byte → Memory
  | [], a, v => if v = Config.resetFill then [] else [(a, v)]
  | (b, u) :: rest, a, v =>
    if a < b then (if v = Config.resetFill then (b, u) :: rest else (a, v) :: (b, u) :: rest)
    else if a = b then (if v = Config.resetFill then rest else (a, v) :: rest)
    else (b, u) :: Memory.writeByte rest a v

/-- The canonical form from index `lo` on: rising indices below 188, none of them holding the reset fill. -/
def Memory.wfFrom : Nat → Memory → Bool
  | _, [] => true
  | lo, (a, v) :: rest =>
    decide (lo ≤ a) && decide (a < Config.pktBytes) && decide (v ≠ Config.resetFill) && Memory.wfFrom (a + 1) rest

/-- The canonical form of a packet buffer. -/
def Memory.wf (m : Memory) : Bool := Memory.wfFrom 0 m

/-- The bytes `PB[i] .. PB[i+n-1]` in wire order. -/
def Memory.slice (m : Memory) : Nat → Nat → List Byte
  | _, 0 => []
  | i, n + 1 => m.readByte i :: Memory.slice m (i + 1) n

/-- The number a list of bytes spells big-endian (20_memory.md R55). -/
def bigEndian (bs : List Byte) : Nat := bs.foldl (fun acc b => acc * 2 ^ 8 + b.toNat) 0

/-- `MemRead(i, n)` as a number, big-endian (00_scope.md R8). -/
def Memory.memRead (m : Memory) (i n : Nat) : Nat := bigEndian (m.slice i n)

/-- The four stores of a host write to PBW[k]: byte 4k from bits 31:24 down to byte 4k+3 from bits 7:0
(20_memory.md R54). -/
def Memory.writeWord (m : Memory) (k : Nat) (w : Word) : Memory :=
  (((m.writeByte (4 * k) (BitVec.ofNat 8 (bits w.toNat 31 24))).writeByte
    (4 * k + 1) (BitVec.ofNat 8 (bits w.toNat 23 16))).writeByte
    (4 * k + 2) (BitVec.ofNat 8 (bits w.toNat 15 8))).writeByte
    (4 * k + 3) (BitVec.ofNat 8 (bits w.toNat 7 0))

/-- A command's read of `PB[i .. i+n-1]`, handed to `k`; outside the 188 bytes MemRead is not defined (00_scope.md R8)
and the machine faults. -/
def readBytes (s : State) (i n : Nat) (k : List Byte → Outcome) : Outcome :=
  if i + n ≤ Config.pktBytes then k (s.pb.slice i n) else .fault .pbIndexOutOfRange

/-- A command's `MemRead(i, n)`, handed to `k` as a number. -/
def memRead (s : State) (i n : Nat) (k : Nat → Outcome) : Outcome :=
  readBytes s i n fun bs => k (bigEndian bs)

/-! ### The command cycle -/

/-- Acceptance: `CMD <- w; PEND <- w; STATUS.BUSY <- 1` (40_control.md R101). -/
def State.accept (s : State) (w : Word) : State := { s with cmd := w, pend := some w, busy := true }

/-- `complete(r, p)`: the successful end of a command (00_scope.md R9; PEND by 40_control.md R102). -/
def State.complete (s : State) (r : Nat) (p : Bool) : State :=
  { s with res := BitVec.ofNat 64 r, p := p, err := .none, busy := false, pend := none }

/-- `complete_keep(p)`: the same, RES unchanged (00_scope.md R9). -/
def State.completeKeep (s : State) (p : Bool) : State :=
  { s with p := p, err := .none, busy := false, pend := none }

/-- `raise E`: the failing end of a command (00_scope.md R9, 60_exceptions.md R200, R203). -/
def State.raise (s : State) (e : ErrCode) : State :=
  { s with res := 0#64, p := false, err := e, busy := false, pend := none }

/-- A command that ends in `complete(r, p)`. -/
def complete (s : State) (r : Nat) (p : Bool) : Outcome := .next (s.complete r p)

/-- A command that ends in `complete(zext_64(t), t)` for a one-bit value `t`. -/
def completeBit (s : State) (t : Nat) : Outcome := .next (s.complete t (t == 1))

/-- A command that ends in `complete_keep(p)`. -/
def completeKeep (s : State) (p : Bool) : Outcome := .next (s.completeKeep p)

/-- A command that ends in `raise E`. -/
def raise (s : State) (e : ErrCode) : Outcome := .next (s.raise e)

end Sys2Proof.Machine
end

