-- ==== Sys2Proof/Machine/Flags.lean ====
section
/-! DEFINITION. The STATUS register as the host sees it: the error codes, the word read, and the write-one-to-clear
bits (10_state.md R25, R28 to R31; 60_exceptions.md R201). The values of P and ERR themselves are written by
`State.complete`, `State.completeKeep` and `State.raise` (Ops.lean), the only operations that write them (R27, R28). -/

namespace Sys2Proof.Machine

/-- The 4-bit code of an error (60_exceptions.md R201). -/
def ErrCode.code : ErrCode → Nat
  | .none => 0
  | .ill => 1
  | .noaf => 2
  | .oob => 3
  | .ovf => 4

/-- STATUS as read: BUSY bit 0, P bit 1, ERR bits 7:4, CMDOVR bit 8, PBLOCK bit 9; reserved bits read 0
(10_state.md R25). -/
def statusWord (s : State) : Word :=
  BitVec.ofNat 32 (s.busy.toNat + s.p.toNat * 2 ^ 1 + s.err.code * 2 ^ 4 + s.cmdovr.toNat * 2 ^ 8 + s.pblock.toNat * 2 ^ 9)

/-- A host write of `w` to STATUS: bit 8 clears CMDOVR, bit 9 clears PBLOCK, all other bits are ignored
(10_state.md R31). -/
def State.writeStatus (s : State) (w : Word) : State :=
  { s with
    cmdovr := s.cmdovr && bit w.toNat 8 == 0
    pblock := s.pblock && bit w.toNat 9 == 0 }

/-- The dropped CMD write: only CMDOVR is set (10_state.md R29). -/
def State.dropCommand (s : State) : State := { s with cmdovr := true }

/-- The dropped PB write: only PBLOCK is set (10_state.md R30). -/
def State.dropPbWrite (s : State) : State := { s with pblock := true }

end Sys2Proof.Machine
end

