-- ==== Sys2Proof/Machine/Bus.lean ====
section
/-! DEFINITION. The host's bus accesses to the 512-byte window (20_memory.md R51 to R59). -/

namespace Sys2Proof.Machine

/-- The register a host address selects: the engine decodes `a[8:2]` and ignores `a[1:0]` (20_memory.md R51, R52). -/
def hostTarget (a : HostAddr) : HostReg :=
  let i := bits a.toNat 8 2
  if i = 0 then .cmd
  else if i = 1 then .status
  else if i = 2 then .resLo
  else if i = 3 then .resHi
  else if 64 ≤ i ∧ i ≤ 110 then .pbw (i - 64)
  else .reserved

/-- The word a host read returns (10_state.md R24, R25, R32; 20_memory.md R53, R59). -/
def hostWord (s : State) (a : HostAddr) : Word :=
  match hostTarget a with
  | .cmd => s.cmd
  | .status => statusWord s
  | .resLo => BitVec.ofNat 32 (bits s.res.toNat 31 0)
  | .resHi => BitVec.ofNat 32 (bits s.res.toNat 63 32)
  | .pbw k => BitVec.ofNat 32 (s.pb.memRead (4 * k) 4)
  | .reserved => 0#32

/-- A host read: it returns the word and changes nothing of the engine (20_memory.md R58; `rdata`: log 3). -/
def State.hostRead (s : State) (a : HostAddr) : State := { s with rdata := hostWord s a }

/-- The store of a host write to PBW[k] (20_memory.md R54). -/
def State.storePb (s : State) (k : Nat) (w : Word) : State := { s with pb := s.pb.writeWord k w }

/-- A host write (10_state.md R24, R29 to R32; 20_memory.md R54, R59; 40_control.md R101). -/
def State.hostWrite (s : State) (a : HostAddr) (w : Word) : State :=
  match hostTarget a with
  | .cmd => if s.busy then s.dropCommand else s.accept w
  | .status => s.writeStatus w
  | .resLo => s
  | .resHi => s
  | .pbw k => if s.busy then s.dropPbWrite else s.storePb k w
  | .reserved => s

end Sys2Proof.Machine
end

