-- ==== Sys2Proof/Machine/Operands.lean ====
section
/-! DEFINITION. What the commands read: the header word and its fields (41_header.md R110, R122), the adaptation-field
inputs, checks and cascading offsets (42_adaptation.md R130 to R133), the payload window (R151) and the timestamp
(43_pcr.md R160, R164). -/

namespace Sys2Proof.Machine

/-! ### The header word `H = BE32(0)` -/

/-- Reads `H = BE32(0)` (41_header.md R110). -/
def readHeader (s : State) (k : Nat → Outcome) : Outcome := memRead s 0 4 k

/-- The fields of H (41_header.md R110). -/
def hSync (h : Nat) : Nat := bits h 31 24
def hTei (h : Nat) : Nat := bit h 23
def hPusi (h : Nat) : Nat := bit h 22
def hTpri (h : Nat) : Nat := bit h 21
def hPid (h : Nat) : Nat := bits h 20 8
def hTsc (h : Nat) : Nat := bits h 7 6
def hAfc (h : Nat) : Nat := bits h 5 4
def hCc (h : Nat) : Nat := bits h 3 0

/-- `has_af = H[5]` and `has_pl = H[4]` (41_header.md R122). -/
def hasAf (h : Nat) : Nat := bit h 5
def hasPl (h : Nat) : Nat := bit h 4

/-! ### The adaptation field -/

/-- `AF_CHECK` (42_adaptation.md R131), then the rest of the command with `L = PB[4]`. -/
def afCheck (s : State) (k : Nat → Outcome) : Outcome :=
  readHeader s fun h =>
    if hasAf h = 0 then raise s .noaf
    else memRead s 4 1 fun l => if l > Config.maxAfLen then raise s .oob else k l

/-- `AF_CHECK`, then the rest of the command with the flags byte `F = PB[5]`, whatever L is (R130). -/
def afFlags (s : State) (k : Nat → Outcome) : Outcome :=
  afCheck s fun _ => memRead s 5 1 k

/-- The eight flags of F (42_adaptation.md R130). -/
def fDisc (f : Nat) : Nat := bit f 7
def fRai (f : Nat) : Nat := bit f 6
def fEspri (f : Nat) : Nat := bit f 5
def fPcr (f : Nat) : Nat := bit f 4
def fOpcr (f : Nat) : Nat := bit f 3
def fSpl (f : Nat) : Nat := bit f 2
def fTpd (f : Nat) : Nat := bit f 1
def fExt (f : Nat) : Nat := bit f 0

/-- The cascading offsets (42_adaptation.md R132). -/
def offPcr (_f : Nat) : Nat := 6
def offOpcr (f : Nat) : Nat := offPcr f + 6 * fPcr f
def offSpl (f : Nat) : Nat := offOpcr f + 6 * fOpcr f
def offTpd (f : Nat) : Nat := offSpl f + 1 * fSpl f

/-- `off_ext`, from `tpd_len` where f_tpd = 1 (42_adaptation.md R132). -/
def offExt (f : Nat) (tpdLen : Option Nat) : Nat :=
  match tpdLen with
  | some len => offTpd f + (1 + len)
  | none => offTpd f

/-- `TPD_CHECK` (42_adaptation.md R133), then the rest of the command with `tpd_len = PB[off_tpd]`, which is read only
when f_tpd = 1 (R132). -/
def tpdCheck (s : State) (f : Nat) (k : Option Nat → Outcome) : Outcome :=
  if fTpd f = 1 then
    memRead s (offTpd f) 1 fun len =>
      if offTpd f + 1 + len > Config.pktBytes then raise s .oob else k (some len)
  else k none

/-! ### The payload window -/

/-- The common part of PLOFF and PLLEN: the bounds check on L, then the rest of the command with `start` and `has_pl`
(42_adaptation.md R151, R152). -/
def payloadWindow (s : State) (k : Nat → Nat → Outcome) : Outcome :=
  readHeader s fun h =>
    if hasAf h = 1 then
      memRead s 4 1 fun l =>
        if l > Config.maxAfLen then raise s .oob else k (Config.hdrBytes + (l + 1)) (hasPl h)
    else k Config.hdrBytes (hasPl h)

/-! ### Timestamps -/

/-- The value of a timestamp window from its `high` and `low` parts (43_pcr.md R160). -/
def pcrValue (high low : Nat) : Nat := (high * 2 + bit low 15) * 300 + bits low 8 0

/-- `decode_pcr(o)`, handed to `k` (43_pcr.md R160). -/
def decodePcr (s : State) (o : Nat) (k : Nat → Outcome) : Outcome :=
  memRead s o 4 fun high => memRead s (o + 4) 2 fun low => k (pcrValue high low)

/-- `pcr_nanos(t)`, exact (43_pcr.md R164). -/
def pcrNanos (t : Nat) : Nat := t * 1000 / 27

/-! ### The byte range of format CR -/

/-- Whether the range `PB[start .. start+len-1]` passes byte 187 (44_crc.md R182, R183). -/
def rangeOutOfBounds (start len : Nat) : Bool := start + len > Config.pktBytes

end Sys2Proof.Machine
end

