-- ==== Sys2Proof/Machine/Adaptation.lean ====
section
/-! DEFINITION. The adaptation-field and payload-window commands (42_adaptation.md R134 to R152). -/

namespace Sys2Proof.Machine

/-! ### Length and flags -/

/-- AFLEN: adaptation_field_length (R134). -/
def execAflen (s : State) : Outcome := afCheck s fun l => complete s l false

/-- AFFLAGS: the eight presence flags as one byte (R135). -/
def execAfflags (s : State) : Outcome := afFlags s fun f => complete s f false

/-- DISC: the discontinuity flag (R136). -/
def execDisc (s : State) : Outcome := afFlags s fun f => completeBit s (fDisc f)

/-- RAI: the random_access flag (R137). -/
def execRai (s : State) : Outcome := afFlags s fun f => completeBit s (fRai f)

/-- ESPRI: the priority_stream flag (R138). -/
def execEspri (s : State) : Outcome := afFlags s fun f => completeBit s (fEspri f)

/-- HASPCR: the PCR flag (R139). -/
def execHaspcr (s : State) : Outcome := afFlags s fun f => completeBit s (fPcr f)

/-- HASOPCR: the OPCR flag (R140). -/
def execHasopcr (s : State) : Outcome := afFlags s fun f => completeBit s (fOpcr f)

/-- HASSPL: the splice_countdown flag (R141). -/
def execHasspl (s : State) : Outcome := afFlags s fun f => completeBit s (fSpl f)

/-- HASTPD: the transport_private_data flag (R142). -/
def execHastpd (s : State) : Outcome := afFlags s fun f => completeBit s (fTpd f)

/-- HASEXT: the extension flag (R143). -/
def execHasext (s : State) : Outcome := afFlags s fun f => completeBit s (fExt f)

/-! ### Sub-field values -/

/-- SPLICE: splice_countdown, zero-extended; an absent field gives 0 with P = 0 (R144). -/
def execSplice (s : State) : Outcome :=
  afFlags s fun f =>
    if fSpl f = 1 then memRead s (offSpl f) 1 fun v => complete s v true else complete s 0 false

/-- TPDLEN: transport_private_data_length; an absent field gives 0 with P = 0 (R145). -/
def execTpdlen (s : State) : Outcome :=
  afFlags s fun f => tpdCheck s f fun tpdLen =>
    match tpdLen with
    | some len => complete s len true
    | none => complete s 0 false

/-! ### Offsets -/

/-- OFFPCR: offset of the PCR sub-field (R146). -/
def execOffpcr (s : State) : Outcome := afFlags s fun f => complete s (offPcr f) (fPcr f == 1)

/-- OFFOPCR: offset of the OPCR sub-field (R147). -/
def execOffopcr (s : State) : Outcome := afFlags s fun f => complete s (offOpcr f) (fOpcr f == 1)

/-- OFFSPL: offset of the splice_countdown sub-field (R148). -/
def execOffspl (s : State) : Outcome := afFlags s fun f => complete s (offSpl f) (fSpl f == 1)

/-- OFFTPD: offset of the transport_private_data_length byte; TPD_CHECK is not applied (R149). -/
def execOfftpd (s : State) : Outcome := afFlags s fun f => complete s (offTpd f) (fTpd f == 1)

/-- OFFEXT: offset of the extension region (R150). -/
def execOffext (s : State) : Outcome :=
  afFlags s fun f => tpdCheck s f fun tpdLen => complete s (offExt f tpdLen) (fExt f == 1)

/-! ### The payload window -/

/-- PLOFF: start of the payload window (R151). -/
def execPloff (s : State) : Outcome := payloadWindow s fun start pl => complete s start (pl == 1)

/-- PLLEN: length of the payload window, `188 - start` (R152; 90_conflicts.md C1). -/
def execPllen (s : State) : Outcome :=
  payloadWindow s fun start pl => complete s (Config.pktBytes - start) (pl == 1)

end Sys2Proof.Machine
end

