-- ==== Sys2Proof/Machine/Control.lean ====
section
/-! DEFINITION. The control command NOP and the illegal words (40_control.md). -/

namespace Sys2Proof.Machine

/-- NOP: `complete_keep(0)` (40_control.md R103). -/
def execNop (s : State) : Outcome := completeKeep s false

/-- A word that decodes to no command: `raise ILL` (40_control.md R104). -/
def execIllegal (s : State) : Outcome := raise s .ill

end Sys2Proof.Machine
end

