-- ==== Sys2Proof/Machine/Crc.lean ====
section
/-! DEFINITION. The bit-serial MPEG-2 CRC32 and its two commands (44_crc.md R180 to R183). -/

namespace Sys2Proof.Machine

/-- `n` of the 8 shift-and-compare steps of `crc_byte`, each on the byte's current top bit (44_crc.md R180). -/
def crcSteps : Nat → Word → Byte → Word
  | 0, acc, _ => acc
  | n + 1, acc, b =>
    crcSteps n (if acc.msb ≠ b.msb then (acc <<< 1) ^^^ Config.crcPoly else acc <<< 1) (b <<< 1)

/-- `crc_byte(acc, b)` (44_crc.md R180). -/
def crcByte (acc : Word) (b : Byte) : Word := crcSteps 8 acc b

/-- The CRC of a message, from the seed, without reflection and without final XOR (44_crc.md R181). -/
def crcBytes (bs : List Byte) : Word := bs.foldl crcByte Config.crcSeed

/-- `crc_calc(start, len)`, handed to `k`: every byte of the range but the last 4 (44_crc.md R181). -/
def crcCalc (s : State) (start len : Nat) (k : Word → Outcome) : Outcome :=
  if len < 4 then k 0#32 else readBytes s start (len - 4) fun bs => k (crcBytes bs)

/-- CRC32: the CRC of a byte range of PB (44_crc.md R182). -/
def execCrc32 (start len : Nat) (s : State) : Outcome :=
  if rangeOutOfBounds start len then raise s .oob
  else crcCalc s start len fun c => complete s c.toNat false

/-- CRCCHK: the CRC of a byte range, compared with the big-endian trailer in its last 4 bytes (44_crc.md R183). -/
def execCrcchk (start len : Nat) (s : State) : Outcome :=
  if rangeOutOfBounds start len then raise s .oob
  else if len < 4 then complete s 0 false
  else crcCalc s start len fun c => memRead s (start + len - 4) 4 fun t => complete s c.toNat (c.toNat == t)

end Sys2Proof.Machine
end

