-- ==== Sys2Proof/Machine/Header.lean ====
section
/-! DEFINITION. The TS packet header decoder commands (41_header.md R111 to R121). None of them fails. -/

namespace Sys2Proof.Machine

/-- HDR: the raw header word (R111). -/
def execHdr (s : State) : Outcome := readHeader s fun h => complete s h false

/-- SYNC: the sync byte, unchecked (R112). -/
def execSync (s : State) : Outcome := readHeader s fun h => complete s (hSync h) false

/-- TEI: transport_error_indicator (R113). -/
def execTei (s : State) : Outcome := readHeader s fun h => completeBit s (hTei h)

/-- PUSI: payload_unit_start_indicator (R114). -/
def execPusi (s : State) : Outcome := readHeader s fun h => completeBit s (hPusi h)

/-- TPRI: transport_priority (R115). -/
def execTpri (s : State) : Outcome := readHeader s fun h => completeBit s (hTpri h)

/-- PID: the packet identifier (R116). -/
def execPid (s : State) : Outcome := readHeader s fun h => complete s (hPid h) false

/-- TSC: transport_scrambling_control (R117). -/
def execTsc (s : State) : Outcome := readHeader s fun h => complete s (hTsc h) false

/-- AFC: adaptation_field_control (R118). -/
def execAfc (s : State) : Outcome := readHeader s fun h => complete s (hAfc h) false

/-- CC: continuity_counter (R119). -/
def execCc (s : State) : Outcome := readHeader s fun h => complete s (hCc h) false

/-- HASAF: has_adaptation_field (R120). -/
def execHasaf (s : State) : Outcome := readHeader s fun h => completeBit s (hasAf h)

/-- HASPL: has_payload (R121). -/
def execHaspl (s : State) : Outcome := readHeader s fun h => completeBit s (hasPl h)

end Sys2Proof.Machine
end

