-- ==== Sys2Proof/Machine/Pcr.lean ====
section
/-! DEFINITION. The PCR and OPCR timestamp commands and NANOS (43_pcr.md R161, R162, R165). -/

namespace Sys2Proof.Machine

/-- PCR: the Program Clock Reference in 27 MHz ticks, 0 where the PCR flag is clear (R161). -/
def execPcr (s : State) : Outcome :=
  afFlags s fun f =>
    if fPcr f = 1 then decodePcr s (offPcr f) fun t => complete s t true else complete s 0 false

/-- OPCR: gated on the PCR flag, not on the OPCR flag, as the source has it (R162). -/
def execOpcr (s : State) : Outcome :=
  afFlags s fun f =>
    if fPcr f = 1 then decodePcr s (offOpcr f) fun t => complete s t true else complete s 0 false

/-- NANOS: RES from 27 MHz ticks to nanoseconds, in place; OVF when the result needs more than 64 bits (R165). -/
def execNanos (s : State) : Outcome :=
  if pcrNanos s.res.toNat ≥ 2 ^ 64 then raise s .ovf else complete s (pcrNanos s.res.toNat) false

end Sys2Proof.Machine
end

