-- ==== Sys2Proof/Machine/Dispatch.lean ====
section
/-! DEFINITION. The dispatch of a decoded command to its meaning, one arm per constructor. -/

namespace Sys2Proof.Machine

def exec (i : Instr) (s : State) : Host.Outcome State Fault Refusal :=
  match i with
  | .nop => Sys2Proof.Machine.execNop s
  | .hdr => Sys2Proof.Machine.execHdr s
  | .sync => Sys2Proof.Machine.execSync s
  | .tei => Sys2Proof.Machine.execTei s
  | .pusi => Sys2Proof.Machine.execPusi s
  | .tpri => Sys2Proof.Machine.execTpri s
  | .pid => Sys2Proof.Machine.execPid s
  | .tsc => Sys2Proof.Machine.execTsc s
  | .afc => Sys2Proof.Machine.execAfc s
  | .cc => Sys2Proof.Machine.execCc s
  | .hasaf => Sys2Proof.Machine.execHasaf s
  | .haspl => Sys2Proof.Machine.execHaspl s
  | .aflen => Sys2Proof.Machine.execAflen s
  | .afflags => Sys2Proof.Machine.execAfflags s
  | .disc => Sys2Proof.Machine.execDisc s
  | .rai => Sys2Proof.Machine.execRai s
  | .espri => Sys2Proof.Machine.execEspri s
  | .haspcr => Sys2Proof.Machine.execHaspcr s
  | .hasopcr => Sys2Proof.Machine.execHasopcr s
  | .hasspl => Sys2Proof.Machine.execHasspl s
  | .hastpd => Sys2Proof.Machine.execHastpd s
  | .hasext => Sys2Proof.Machine.execHasext s
  | .pcr => Sys2Proof.Machine.execPcr s
  | .opcr => Sys2Proof.Machine.execOpcr s
  | .splice => Sys2Proof.Machine.execSplice s
  | .tpdlen => Sys2Proof.Machine.execTpdlen s
  | .offpcr => Sys2Proof.Machine.execOffpcr s
  | .offopcr => Sys2Proof.Machine.execOffopcr s
  | .offspl => Sys2Proof.Machine.execOffspl s
  | .offtpd => Sys2Proof.Machine.execOfftpd s
  | .offext => Sys2Proof.Machine.execOffext s
  | .ploff => Sys2Proof.Machine.execPloff s
  | .pllen => Sys2Proof.Machine.execPllen s
  | .nanos => Sys2Proof.Machine.execNanos s
  | .crc32 start len => Sys2Proof.Machine.execCrc32 start len s
  | .crcchk start len => Sys2Proof.Machine.execCrcchk start len s

end Sys2Proof.Machine
end

