-- ==== Sys2Proof/Machine/Cycle.lean ====
section
/-! DEFINITION. One turn of each agent: the engine's completion step, a host access, reset (40_control.md R100, R102;
70_reset_and_hazards.md R230). -/

namespace Sys2Proof.Machine

/-- The engine's turn: it completes the pending command (40_control.md R102) and does nothing when none is pending
(R100; an engine turn that is not enabled: log 2). -/
def engineTurn (s : State) : Outcome :=
  match s.pend with
  | none => .next s
  | some w =>
    match decode w with
    | .command i => exec i s
    | .illegal _ => execIllegal s

/-- Reset: every piece of the engine's state takes its reset value in one step and a pending command is lost
(70_reset_and_hazards.md R230). What the host still has to do and the word it last read are not the engine's
(DESIGN CHOICE, log 4). -/
def State.resetEngine (s : State) : State := { State.reset with rdata := s.rdata, agenda := s.agenda }

/-- One turn. -/
def takeTurn (t : Turn) (s : State) : Outcome :=
  match t with
  | .hostRead a => .next (s.hostRead a)
  | .hostWrite a w => .next (s.hostWrite a w)
  | .engine => engineTurn s
  | .reset => .next s.resetEngine

/-- The step: the next turn of the agenda; after the last one the engine moves by itself (40_control.md R105, log 2). -/
def nextTurn (s : State) : Outcome :=
  match s.agenda with
  | [] => engineTurn s
  | t :: rest => takeTurn t { s with agenda := rest }

/-- The state in which the command word `w` has just been accepted and the engine's turn is next. -/
def State.withPending (s : State) (w : Word) : State :=
  { s.accept w with agenda := .engine :: s.agenda }

end Sys2Proof.Machine
end

