-- ==== Sys2Proof/Machine/Step.lean ====
section
/-! DEFINITION. The step of the machine, and the state in which a given opcode-table word is the next command to run. -/

namespace Sys2Proof.Machine

/-- One step of the machine: one turn of one agent. -/
def step (s : State) : Host.Outcome State Fault Refusal := nextTurn s

/-- The engine fetches nothing (10_state.md R22): a command comes to run by being accepted. So this is `s` with that
word accepted and the engine's turn next (log 4). -/
def State.withFetchWord (s : State) (nbits w : Nat) : State := s.withPending (tableWord nbits w)

end Sys2Proof.Machine
end

