-- ==== Sys2Proof/Machine/HostProgram.lean ====
section
/-! DEFINITION. The host's notation of 30_encoding.md R80 as agendas: each operation is the list of turns it takes. -/

namespace Sys2Proof.Machine

/-- `WR off, word` (R80). -/
def opWr (off : Nat) (w : Word) : Turn := .hostWrite (BitVec.ofNat 9 off) w

/-- `RD off` (R80). -/
def opRd (off : Nat) : Turn := .hostRead (BitVec.ofNat 9 off)

/-- `LOAD k, word` = `WR 0x100 + 4k, word` (R80). -/
def opLoad (k : Nat) (w : Word) : Turn := opWr (0x100 + 4 * k) w

/-- `CLR` = `WR 0x004, 0x00000300` (R80). -/
def opClr : Turn := opWr 0x004 0x00000300#32

/-- `GETRES` = `RD 0x008` then `RD 0x00C` (R80). -/
def opGetRes : List Turn := [opRd 0x008, opRd 0x00C]

/-- `WAIT`, the loop that reads STATUS until bit 0 is 0 (R80): `polls` reads fall before the completion, the next one
after it. How many do is open, since T_CMD is (log 11). -/
def opWait (polls : Nat) : List Turn := List.replicate polls (opRd 0x004) ++ [.engine, opRd 0x004]

/-- `EXEC M` = `WR 0x000, enc(M)` followed by `WAIT` (R80). -/
def opExec (i : Instr) (polls : Nat) : List Turn := opWr 0x000 (encode i) :: opWait polls

end Sys2Proof.Machine
end

