-- ==== Sys2Proof/Safety.lean ====
section
/-! DEFINITION. The terms claims are stated in: a command's end state, the packet's fields byte by byte, the
cascading offsets from the ordered list of sub-fields, the CRC over the bits of a message, the legal state. They are
written from the rules of spec/ anew and call nothing of the meanings, so that a claim compares two readings. -/

namespace Sys2Proof.Safety

open Sys2Proof.Machine

/-! ### How a command ends -/

/-- The state after `complete(r, p)` (00_scope.md R9; 40_control.md R102). -/
def succeeded (s : State) (r : Nat) (p : Bool) : State :=
  { s with res := BitVec.ofNat 64 r, p := p, err := .none, busy := false, pend := none }

/-- The state after `complete_keep(p)` (00_scope.md R9). -/
def succeededKeep (s : State) (p : Bool) : State :=
  { s with p := p, err := .none, busy := false, pend := none }

/-- The state after `raise E` (00_scope.md R9; 60_exceptions.md R200, R203). -/
def failed (s : State) (e : ErrCode) : State :=
  { s with res := 0#64, p := false, err := e, busy := false, pend := none }

/-- It is the engine's turn: the agenda says so, or it is exhausted. `rest` is what remains of it. -/
def EngineTurnIs (s : State) (rest : List Turn) : Prop :=
  s.agenda = .engine :: rest ∨ (s.agenda = [] ∧ rest = [])

/-- The turn is a host bus access (40_control.md R100 (1)). -/
def isHostAccess : Turn → Bool
  | .hostRead _ => true
  | .hostWrite _ _ => true
  | .engine => false
  | .reset => false

/-! ### The legal state -/

/-- What holds of the state between any two steps: PB is a canonical 188-byte buffer, BUSY = 1 exactly when a command
is pending (10_state.md R33), and the pending word is the one CMD shows (R33). -/
def Legal (s : State) : Prop :=
  s.pb.wf = true ∧ s.busy = s.pend.isSome ∧ (s.pend = none ∨ s.pend = some s.cmd)

/-! ### The opcode map (30_encoding.md R75) -/

/-- The rows of format C0. -/
def c0Map : List (Nat × Instr) :=
  [(0x00, .nop),
    (0x10, .hdr), (0x11, .sync), (0x12, .tei), (0x13, .pusi), (0x14, .tpri), (0x15, .pid), (0x16, .tsc), (0x17, .afc),
    (0x18, .cc), (0x19, .hasaf), (0x1A, .haspl),
    (0x20, .aflen), (0x21, .afflags), (0x22, .disc), (0x23, .rai), (0x24, .espri), (0x25, .haspcr), (0x26, .hasopcr),
    (0x27, .hasspl), (0x28, .hastpd), (0x29, .hasext),
    (0x30, .pcr), (0x31, .opcr), (0x32, .splice), (0x33, .tpdlen),
    (0x38, .offpcr), (0x39, .offopcr), (0x3A, .offspl), (0x3B, .offtpd), (0x3C, .offext),
    (0x40, .ploff), (0x41, .pllen), (0x50, .nanos)]

/-- The rows of format CR. -/
def crMap : List (Nat × (Nat → Nat → Instr)) := [(0x60, .crc32), (0x61, .crcchk)]

/-- The OPC byte of a command word (30_encoding.md R71). -/
def opcOf (w : Word) : Nat := w.toNat / 2 ^ 24

/-- The reserved OPC values, as the ranges of 30_encoding.md R77. -/
def reservedOpc (o : Nat) : Prop :=
  (0x01 ≤ o ∧ o ≤ 0x0F) ∨ (0x1B ≤ o ∧ o ≤ 0x1F) ∨ (0x2A ≤ o ∧ o ≤ 0x2F) ∨ (0x34 ≤ o ∧ o ≤ 0x37) ∨
  (0x3D ≤ o ∧ o ≤ 0x3F) ∨ (0x42 ≤ o ∧ o ≤ 0x4F) ∨ (0x51 ≤ o ∧ o ≤ 0x5F) ∨ (0x62 ≤ o ∧ o ≤ 0xFF)

/-- A word 30_encoding.md R76 does not decode: reserved OPC, format C0 with a non-zero bit among 23:0, or format CR
(0x60, 0x61) with a non-zero bit among 23:16. -/
def illegalWord (w : Word) : Prop :=
  reservedOpc (opcOf w) ∨
  (¬ reservedOpc (opcOf w) ∧ opcOf w < 0x60 ∧ w.toNat % 2 ^ 24 ≠ 0) ∨
  (0x60 ≤ opcOf w ∧ opcOf w ≤ 0x61 ∧ w.toNat / 2 ^ 16 % 2 ^ 8 ≠ 0)

/-! ### The packet, byte by byte -/

/-- `PB[i]` as a number. -/
def byteAt (s : State) (i : Nat) : Nat := (s.pb.readByte i).toNat

/-- Bit `b` of `PB[i]`. -/
def byteBit (s : State) (i b : Nat) : Bool := (s.pb.readByte i).getLsbD b

/-- `MemRead(i, n)` as the sum of 00_scope.md R8. -/
def beRead (s : State) (i n : Nat) : Nat :=
  ((List.range n).map fun j => byteAt s (i + j) * 2 ^ (8 * (n - 1 - j))).sum

/-- AFC, bits 5:4 of byte 3 (41_header.md R110). -/
def afcOf (s : State) : Nat := byteAt s 3 / 16 % 4

/-- The packet has an adaptation field: AFC is 2 or 3 (41_header.md R122). -/
def HasAf (s : State) : Prop := afcOf s = 2 ∨ afcOf s = 3

/-- AFC is 1 or 3, as a Bool (41_header.md R122). -/
def hasPayload (s : State) : Bool := afcOf s == 1 || afcOf s == 3

/-- adaptation_field_length, byte 4 (42_adaptation.md R130). -/
def afLenOf (s : State) : Nat := byteAt s 4

/-- Flag `k` of the flags byte, byte 5 (42_adaptation.md R130). -/
def flagOf (s : State) (k : Nat) : Bool := byteBit s 5 k

/-- AF_CHECK passes (42_adaptation.md R131). -/
def AfReadable (s : State) : Prop := HasAf s ∧ afLenOf s ≤ 183

/-- The optional sub-fields before the private data, in their fixed order: presence flag and length
(42_adaptation.md R132). -/
def subFields (s : State) : List (Bool × Nat) := [(flagOf s 4, 6), (flagOf s 3, 6), (flagOf s 2, 1)]

/-- The total length of the present sub-fields of a list. -/
def presentLength (l : List (Bool × Nat)) : Nat := (l.map fun x => if x.1 then x.2 else 0).sum

/-- "6 plus the cumulative byte-length of every optional sub-field that precedes it and is present", for sub-field
number `k` of the order (42_adaptation.md R132). -/
def offsetOf (s : State) (k : Nat) : Nat := 6 + presentLength ((subFields s).take k)

/-- transport_private_data_length, the byte at the fourth sub-field's offset (42_adaptation.md R132). -/
def tpdLenOf (s : State) : Nat := byteAt s (offsetOf s 3)

/-- The offset of the extension region, after all four sub-fields (42_adaptation.md R132). -/
def extOffsetOf (s : State) : Nat := 6 + presentLength (subFields s ++ [(flagOf s 1, 1 + tpdLenOf s)])

/-- TPD_CHECK passes (42_adaptation.md R133). -/
def TpdReadable (s : State) : Prop := flagOf s 1 = true → offsetOf s 3 + 1 + tpdLenOf s ≤ 188

/-- The timestamp in the window `PB[o .. o+5]` (43_pcr.md R160, R166). -/
def timestampAt (s : State) (o : Nat) : Nat :=
  300 * (beRead s o 4 * 2 + (byteBit s (o + 4) 7).toNat) + beRead s (o + 4) 2 % 512

/-! ### The CRC of a message, bit by bit (44_crc.md R180, R181) -/

/-- The bits of a byte, most significant first. -/
def byteBits (b : Byte) : List Bool := [7, 6, 5, 4, 3, 2, 1, 0].map b.getLsbD

/-- One shift-and-compare step, on numbers below 2^32. -/
def crcShift (acc : Nat) (x : Bool) : Nat :=
  if (acc / 2 ^ 31 == 1) != x then (acc * 2 % 2 ^ 32) ^^^ 0x04C11DB7 else acc * 2 % 2 ^ 32

/-- The CRC of a message: all its bits in wire order, from the seed, no final XOR. -/
def messageCrc (bs : List Byte) : Nat := (bs.flatMap byteBits).foldl crcShift 0xFFFFFFFF

/-- `crc_calc(start, n)`: 0 for fewer than 4 bytes, else the CRC of all bytes of the range but the last 4. -/
def crcOf (s : State) (start n : Nat) : Nat :=
  if n < 4 then 0 else messageCrc ((List.range (n - 4)).map fun j => s.pb.readByte (start + j))

/-! ### Which bytes a command may read (70_reset_and_hazards.md R233) -/

/-- The indices of PB a command may read. -/
def footprint (s : State) : Instr → List Nat
  | .nop | .nanos => []
  | .hdr | .sync | .tei | .pusi | .tpri | .pid | .tsc | .afc | .cc | .hasaf | .haspl => [0, 1, 2, 3]
  | .aflen | .afflags | .disc | .rai | .espri | .haspcr | .hasopcr | .hasspl | .hastpd | .hasext => [3, 4, 5]
  | .offpcr | .offopcr | .offspl | .offtpd => [3, 4, 5]
  | .splice => [3, 4, 5, offsetOf s 2]
  | .tpdlen | .offext => [3, 4, 5, offsetOf s 3]
  | .pcr => [3, 4, 5, 6, 7, 8, 9, 10, 11]
  | .opcr => [3, 4, 5, 12, 13, 14, 15, 16, 17]
  | .ploff | .pllen => [3, 4]
  | .crc32 start len => (List.range (len - 4)).map (start + ·)
  | .crcchk start len => (List.range len).map (start + ·)

/-! ### The families of commands -/

/-- The commands that begin with AF_CHECK: those that can raise NOAF (60_exceptions.md R201). -/
def afCommands : List Instr :=
  [.aflen, .afflags, .disc, .rai, .espri, .haspcr, .hasopcr, .hasspl, .hastpd, .hasext,
    .pcr, .opcr, .splice, .tpdlen, .offpcr, .offopcr, .offspl, .offtpd, .offext]

/-- The header commands whose result does not depend on the continuity counter (41_header.md R123). -/
def ccFreeCommands : List Instr := [.sync, .tei, .pusi, .tpri, .pid, .tsc, .afc, .hasaf, .haspl]

/-- An adaptation-field command: `word` decodes to it, it has its `result` whenever AF_CHECK passes, raises NOAF when
there is no adaptation field, and OOB when there is one whose length is above 183 (42_adaptation.md R131, R202). -/
def AfRule (i : Instr) (word : Word) (result : State → State) : Prop :=
  decode word = .command i ∧
  (∀ s, AfReadable s → exec i s = .next (result s)) ∧
  (∀ s, ¬ HasAf s → exec i s = .next (failed s .noaf)) ∧
  (∀ s, HasAf s → 183 < afLenOf s → exec i s = .next (failed s .oob))

/-- The same for a command that also makes TPD_CHECK, after AF_CHECK (42_adaptation.md R133, R202). -/
def TpdRule (i : Instr) (word : Word) (result : State → State) : Prop :=
  decode word = .command i ∧
  (∀ s, AfReadable s → TpdReadable s → exec i s = .next (result s)) ∧
  (∀ s, ¬ HasAf s → exec i s = .next (failed s .noaf)) ∧
  (∀ s, HasAf s → 183 < afLenOf s → exec i s = .next (failed s .oob)) ∧
  (∀ s, AfReadable s → ¬ TpdReadable s → exec i s = .next (failed s .oob))

/-- A command without failing forms: `word` decodes to it and it always has its `result`. -/
def PlainRule (i : Instr) (word : Word) (result : State → State) : Prop :=
  decode word = .command i ∧ ∀ s, exec i s = .next (result s)

/-- A one-bit result: RES is the bit and P is the bit (41_header.md R113, 42_adaptation.md R136). -/
def succeededBit (s : State) (b : Bool) : State := succeeded s b.toNat b

end Sys2Proof.Safety
end

