-- ==== Sys2Proof/Certificates/Slice0/Obligations.lean ====
section
/-! DEFINITION. The statements for the provers. Each docstring says what the statement says and, where it rests on a
choice of the model, names the log entry. -/

open Sys2Proof Sys2Proof.Machine Sys2Proof.Safety

/-- For every well-formed command (each operand of CRC32 and CRCCHK at any value 0 to 255), decode (encode i) is i.
Derived from R71, R72, R73, R75, R76, R79. -/
def Obligations.EncodedCommandDecodesToItself : Prop :=
  ∀ i : Instr, WellFormed i = true → decode (encode i) = .command i

/-- For every 32-bit word w, if w decodes to a command i then i is well formed and encode i is w. Derived from R70, R76,
R79. -/
def Obligations.DecodedWordIsItsEncoding : Prop :=
  ∀ (w : Word) (i : Instr), decode w = .command i → WellFormed i = true ∧ encode i = w

/-- For every word: a reserved OPC is rejected as such; a row of format C0 gives its command when bits 23:0 are zero and
is rejected otherwise; a row of format CR gives its command with operands A = bits 15:8 and B = bits 7:0 when bits
23:16 are zero and is rejected otherwise. Derived from R71, R72, R73, R75, R76. -/
def Obligations.DecoderFollowsTheOpcodeMap : Prop :=
  ∀ w : Word,
    (reservedOpc (opcOf w) → decode w = .illegal .reservedOpcode) ∧
    (∀ row ∈ c0Map, opcOf w = row.1 →
      decode w = if w.toNat % 2 ^ 24 = 0 then .command row.2 else .illegal .operandBitsNotZero) ∧
    (∀ row ∈ crMap, opcOf w = row.1 →
      decode w = if w.toNat / 2 ^ 16 % 2 ^ 8 = 0
        then .command (row.2 (w.toNat / 2 ^ 8 % 2 ^ 8) (w.toNat % 2 ^ 8)) else .illegal .reservedFieldNotZero)

/-- 0x00000000 is NOP, 0x10000000 HDR, 0x20000000 AFLEN, 0x30000000 PCR, 0x3C000000 OFFEXT, 0x41000000 PLLEN, 0x50000000
NANOS, 0x6000AC10 CRC32 172, 16, 0x6100AC10 CRCCHK 172, 16 and 0x6000FFFF CRC32 255, 255; 0x01000000 and 0x10000001
are illegal. Derived from 30_encoding.md R75, R79, 40_control.md R104. -/
def Obligations.SampleWordsDecodeAsWrittenOut : Prop :=
  decode 0x00000000#32 = .command .nop ∧ decode 0x10000000#32 = .command .hdr ∧
    decode 0x20000000#32 = .command .aflen ∧ decode 0x30000000#32 = .command .pcr ∧
    decode 0x3C000000#32 = .command .offext ∧ decode 0x41000000#32 = .command .pllen ∧
    decode 0x50000000#32 = .command .nanos ∧ decode 0x6000AC10#32 = .command (.crc32 172 16) ∧
    decode 0x6100AC10#32 = .command (.crcchk 172 16) ∧ decode 0x6000FFFF#32 = .command (.crc32 255 255) ∧
    decode 0x01000000#32 = .illegal .reservedOpcode ∧ decode 0x10000001#32 = .illegal .operandBitsNotZero

/-- If a word is pending, it decodes to i and it is the engine's turn (an engine turn at the head of the agenda, or an
exhausted agenda: the model's form of the free interleaving, log 1 and log 2), then step is exec i on the state
whose agenda is what remains. Derived from 40_control.md R100, R102, 10_state.md R33. -/
def Obligations.StepRunsThePendingCommand : Prop :=
  ∀ (s : State) (w : Word) (i : Instr) (rest : List Turn), s.pend = some w → decode w = .command i →
    EngineTurnIs s rest → step s = exec i { s with agenda := rest }

/-- For every state in which an illegal word is pending (a reserved OPC, or a defined OPC with non-zero reserved bits)
and it is the engine's turn, the step ends in raise ILL: RES 0, P 0, ERR ILL, BUSY 0, PEND none, nothing else
changed; the two illegal examples of the rule are among those words and 0x6000FFFF is not. The turn's form is the
model's (log 1 and log 2). Formalises R104. -/
def Obligations.IllegalWordRaisesIll : Prop :=
  (∀ (s : State) (w : Word) (rest : List Turn), s.pend = some w → illegalWord w → EngineTurnIs s rest →
      step s = .next (failed { s with agenda := rest } .ill)) ∧
    illegalWord 0x01000000#32 ∧ illegalWord 0x10000001#32 ∧ ¬ illegalWord 0x6000FFFF#32

/-- On the engine's turn (its form is the model's: log 1 and log 2), a pending word whose OPC lies in one of the
reserved ranges, or whose OPC is defined and whose reserved field is non-zero, raises ILL; and a command other than
NOP never answers a state whose RES it did not write: from two states that differ in RES only it ends with one RES,
NANOS excepted, which reads it. Formalises R77. -/
def Obligations.ReservedEncodingsRaiseIll : Prop :=
  (∀ (s : State) (w : Word) (rest : List Turn), s.pend = some w → EngineTurnIs s rest →
      (reservedOpc (opcOf w) ∨
        (∃ row ∈ c0Map, opcOf w = row.1 ∧ w.toNat % 2 ^ 24 ≠ 0) ∨
        (∃ row ∈ crMap, opcOf w = row.1 ∧ w.toNat / 2 ^ 16 % 2 ^ 8 ≠ 0)) →
      step s = .next (failed { s with agenda := rest } .ill)) ∧
    (∀ s : State, exec .nop s = .next { s with p := false, err := .none, busy := false, pend := none }) ∧
    (∀ (i : Instr) (s : State) (r : DWord), i ≠ .nop → i ≠ .nanos →
      ∃ t u, exec i s = .next t ∧ exec i { s with res := r } = .next u ∧ t.res = u.res)

/-- If no command is pending and it is the engine's turn, the step changes nothing but the agenda (that such a turn
exists at all is the model's choice, log 2). Derived from 40_control.md R100, 60_exceptions.md R213. -/
def Obligations.EngineIsIdleWhenNothingIsPending : Prop :=
  ∀ (s : State) (rest : List Turn), s.pend = none → EngineTurnIs s rest → step s = .next { s with agenda := rest }

/-- For every command and state exec answers a next state, and it is one of: RES <- r below 2^64 with ERR NONE; RES kept
with ERR NONE, for NOP only; or RES 0, P 0 and ERR one of NOAF, OOB, OVF. Everything but RES, P, ERR, BUSY and PEND
is unchanged (the end states are written as updates of the state); an illegal word ends in the same way with ERR
ILL. Formalises R203. -/
def Obligations.CommandEndsPreciselyInOneWay : Prop :=
  (∀ (i : Instr) (s : State), ∃ t, exec i s = .next t ∧
      ((∃ r p, r < 2 ^ 64 ∧ i ≠ .nop ∧ t = succeeded s r p) ∨ (i = .nop ∧ t = succeededKeep s false) ∨
        (∃ e, (e = .noaf ∨ e = .oob ∨ e = .ovf) ∧ t = failed s e))) ∧
    (∀ (w : Word) (s : State), s.pend = some w → illegalWord w → engineTurn s = .next (failed s .ill))

/-- For every state whatsoever (any contents, any pending word, any agenda), step answers a next state; in particular no
command reads PB outside its 188 bytes and no command is refused. Derived from 60_exceptions.md R200, 20_memory.md
R51, 00_scope.md R8. -/
def Obligations.StepNeverStops : Prop :=
  ∀ s : State, ∃ t : State, step s = .next t

/-- For every command i: when exec i answers a next state, CMD, CMDOVR, PBLOCK and the model's own fields are unchanged,
every byte of PB reads as before (no command stores), BUSY is 0 and PEND is none; NOP also leaves RES. Derived from
40_control.md R102, 10_state.md R23, R32. -/
def Obligations.CompletionLeavesEverythingElse : Prop :=
  ∀ (i : Instr) (s t : State), exec i s = .next t →
    t.cmd = s.cmd ∧ t.cmdovr = s.cmdovr ∧ t.pblock = s.pblock ∧ t.rdata = s.rdata ∧ t.agenda = s.agenda ∧
    (∀ a, t.pb.readByte a = s.pb.readByte a) ∧ t.busy = false ∧ t.pend = none ∧ (i = .nop → t.res = s.res)

/-- For every step: if RES, P or ERR differ afterwards, then either it was the engine's turn with a command pending, or
it was a reset. Derived from 10_state.md R27, R28, R32, 70_reset_and_hazards.md R230. -/
def Obligations.ResultsChangeOnlyAtCompletionOrReset : Prop :=
  ∀ s t : State, step s = .next t → (t.res ≠ s.res ∨ t.p ≠ s.p ∨ t.err ≠ s.err) →
    (s.pend ≠ none ∧ ∃ rest, EngineTurnIs s rest) ∨ (∃ rest, s.agenda = .reset :: rest)

/-- For every step: if byte a of PB reads differently afterwards, then the turn was a host write to the PB word that
holds byte a, made while BUSY was 0, or a reset. Derived from 10_state.md R23, R30, 20_memory.md R54. -/
def Obligations.PbChangesOnlyByIdleHostWriteOrReset : Prop :=
  ∀ (s t : State) (a : Nat), step s = .next t → t.pb.readByte a ≠ s.pb.readByte a →
    (∃ off w rest, s.agenda = .hostWrite off w :: rest ∧ s.busy = false ∧ off.toNat / 4 = 64 + a / 4 ∧ a < 188) ∨
    (∃ rest, s.agenda = .reset :: rest)

/-- On a host write of any word w to CMD (addresses 0 to 3): if BUSY is 0 then CMD and PEND become w and BUSY 1 in one
step, everything else unchanged; if BUSY is 1 then only CMDOVR is set. Formalises R101. -/
def Obligations.CommandWriteIsAcceptedWhenIdle : Prop :=
  ∀ (s : State) (a : HostAddr) (w : Word) (rest : List Turn), s.agenda = .hostWrite a w :: rest → a.toNat < 4 →
    (s.busy = false → step s = .next { s with cmd := w, pend := some w, busy := true, agenda := rest }) ∧
    (s.busy = true → step s = .next { s with cmdovr := true, agenda := rest })

/-- A host write to CMD while BUSY = 1 sets CMDOVR and changes nothing else; CMDOVR = 1 stays 1 over every step except a
STATUS write with bit 8 set and reset, and those two clear it. Formalises R29. -/
def Obligations.DroppedCommandWriteSetsStickyCmdovr : Prop :=
  (∀ (s : State) (a : HostAddr) (w : Word) (rest : List Turn), s.agenda = .hostWrite a w :: rest → a.toNat < 4 →
      s.busy = true → step s = .next { s with cmdovr := true, agenda := rest }) ∧
    (∀ s t : State, step s = .next t → s.cmdovr = true → (t.cmdovr = false ↔
      (∃ a w rest, s.agenda = .hostWrite a w :: rest ∧ a.toNat / 4 = 1 ∧ w.getLsbD 8 = true) ∨
      (∃ rest, s.agenda = .reset :: rest)))

/-- A host write to any PB word while BUSY = 1 sets PBLOCK and changes nothing else; PBLOCK = 1 stays 1 over every step
except a STATUS write with bit 9 set and reset, and those two clear it. Formalises R30. -/
def Obligations.DroppedPbWriteSetsStickyPblock : Prop :=
  (∀ (s : State) (a : HostAddr) (w : Word) (rest : List Turn), s.agenda = .hostWrite a w :: rest →
      0x100 ≤ a.toNat → a.toNat < 0x1BC → s.busy = true → step s = .next { s with pblock := true, agenda := rest }) ∧
    (∀ s t : State, step s = .next t → s.pblock = true → (t.pblock = false ↔
      (∃ a w rest, s.agenda = .hostWrite a w :: rest ∧ a.toNat / 4 = 1 ∧ w.getLsbD 9 = true) ∨
      (∃ rest, s.agenda = .reset :: rest)))

/-- On a host write of w to STATUS (addresses 4 to 7), whatever BUSY is: CMDOVR becomes 0 if w[8] = 1 and keeps its
value otherwise, PBLOCK likewise by w[9], and nothing else changes. Formalises R31. -/
def Obligations.StatusWriteClearsOnlyTheNamedBits : Prop :=
  ∀ (s : State) (a : HostAddr) (w : Word) (rest : List Turn), s.agenda = .hostWrite a w :: rest → a.toNat / 4 = 1 →
    step s = .next { s with
      cmdovr := if w.getLsbD 8 then false else s.cmdovr
      pblock := if w.getLsbD 9 then false else s.pblock
      agenda := rest }

/-- A host read of STATUS (addresses 4 to 7) returns BUSY in bit 0, P in bit 1, the code of ERR in bits 7:4, CMDOVR in
bit 8, PBLOCK in bit 9 and 0 in bits 3:2 and 31:10; a write to STATUS with bits 8 and 9 zero changes nothing, one
with both set clears the two sticky bits; in the reset state the read returns 0. The word a read returns is the
model's field rdata (log 3). Formalises R25. -/
def Obligations.StatusReadsItsFields : Prop :=
  (∀ (s : State) (a : HostAddr) (rest : List Turn), s.agenda = .hostRead a :: rest → a.toNat / 4 = 1 →
      ∃ v : Word, step s = .next { s with rdata := v, agenda := rest } ∧
        v.getLsbD 0 = s.busy ∧ v.getLsbD 1 = s.p ∧ v.toNat / 2 ^ 4 % 2 ^ 4 = s.err.code ∧
        v.getLsbD 8 = s.cmdovr ∧ v.getLsbD 9 = s.pblock ∧ v.toNat / 2 ^ 2 % 2 ^ 2 = 0 ∧ v.toNat / 2 ^ 10 = 0) ∧
    (∀ (s : State) (a : HostAddr) (w : Word) (rest : List Turn), s.agenda = .hostWrite a w :: rest → a.toNat / 4 = 1 →
      (w.getLsbD 8 = false → w.getLsbD 9 = false → step s = .next { s with agenda := rest }) ∧
      (w.getLsbD 8 = true → w.getLsbD 9 = true →
        step s = .next { s with cmdovr := false, pblock := false, agenda := rest })) ∧
    (∀ a : HostAddr, a.toNat / 4 = 1 →
      step { State.reset with agenda := [.hostRead a] } = .next { State.reset with rdata := 0#32 })

/-- NONE is 0, ILL 1, NOAF 2, OOB 3, OVF 4. Derived from 60_exceptions.md R201. -/
def Obligations.ErrorCodesAreAsTabled : Prop :=
  ErrCode.code .none = 0 ∧ ErrCode.code .ill = 1 ∧ ErrCode.code .noaf = 2 ∧ ErrCode.code .oob = 3 ∧
    ErrCode.code .ovf = 4

/-- A host read of CMD returns CMD, of RES_LO bits 31:0 of RES and of RES_HI bits 63:32, each changing nothing of the
engine (the word returned is the model's field rdata, log 3). Derived from 10_state.md R24, R32, 20_memory.md R52. -/
def Obligations.CmdAndResReadBack : Prop :=
  ∀ (s : State) (a : HostAddr) (rest : List Turn), s.agenda = .hostRead a :: rest →
    (a.toNat / 4 = 0 → step s = .next { s with rdata := s.cmd, agenda := rest }) ∧
    (a.toNat / 4 = 2 → step s = .next { s with rdata := s.res.extractLsb' 0 32, agenda := rest }) ∧
    (a.toNat / 4 = 3 → step s = .next { s with rdata := s.res.extractLsb' 32 32, agenda := rest })

/-- On a host write of w to PBW[k] (k from 0 to 46): if BUSY is 0, PB is the only state that changes, byte 4k becomes
w[31:24], 4k+1 w[23:16], 4k+2 w[15:8], 4k+3 w[7:0], and every other byte reads as before; if BUSY is 1, only PBLOCK
is set. PB in canonical form is a premise, which every step keeps. Formalises R54. -/
def Obligations.PbWordWriteStoresFourBytes : Prop :=
  ∀ (s : State) (a : HostAddr) (w : Word) (k : Nat) (rest : List Turn), s.pb.wf = true →
    s.agenda = .hostWrite a w :: rest → k ≤ 46 → a.toNat / 4 = 64 + k →
    (s.busy = false → ∃ m : Memory, step s = .next { s with pb := m, agenda := rest } ∧
      m.readByte (4 * k) = w.extractLsb' 24 8 ∧ m.readByte (4 * k + 1) = w.extractLsb' 16 8 ∧
      m.readByte (4 * k + 2) = w.extractLsb' 8 8 ∧ m.readByte (4 * k + 3) = w.extractLsb' 0 8 ∧
      ∀ j, j < 4 * k ∨ 4 * k + 3 < j → m.readByte j = s.pb.readByte j) ∧
    (s.busy = true → step s = .next { s with pblock := true, agenda := rest })

/-- On a host read of PBW[k] (k from 0 to 46), whatever BUSY is, the word returned is PB[4k], PB[4k+1], PB[4k+2],
PB[4k+3] from the most significant byte down, and nothing of the engine changes; PBW[0] reads as the header word HDR
puts into RES. The word a read returns is the model's field rdata (log 3). Formalises R53. -/
def Obligations.PbWordReadIsBigEndian : Prop :=
  (∀ (s : State) (a : HostAddr) (k : Nat) (rest : List Turn), s.agenda = .hostRead a :: rest → k ≤ 46 →
      a.toNat / 4 = 64 + k → step s = .next { s with
        rdata := s.pb.readByte (4 * k) ++ s.pb.readByte (4 * k + 1) ++ s.pb.readByte (4 * k + 2) ++
          s.pb.readByte (4 * k + 3)
        agenda := rest }) ∧
    (∀ (s t : State), exec .hdr s = .next t →
      t.res.toNat = (s.pb.readByte 0 ++ s.pb.readByte 1 ++ s.pb.readByte 2 ++ s.pb.readByte 3).toNat)

/-- A host read of a reserved offset (0x010 to 0x0FF, or 0x1BC and above) returns 0 and changes nothing; a host write
there or to RES_LO or RES_HI (0x008 to 0x00F) changes nothing. The word a read returns is the model's field rdata
(log 3). Formalises R59. -/
def Obligations.ReservedOffsetsReadZeroAndIgnoreWrites : Prop :=
  ∀ (s : State) (a : HostAddr) (w : Word) (rest : List Turn),
    (s.agenda = .hostRead a :: rest → (0x010 ≤ a.toNat ∧ a.toNat < 0x100) ∨ 0x1BC ≤ a.toNat →
      step s = .next { s with rdata := 0#32, agenda := rest }) ∧
    (s.agenda = .hostWrite a w :: rest → (0x008 ≤ a.toNat ∧ a.toNat < 0x100) ∨ 0x1BC ≤ a.toNat →
      step s = .next { s with agenda := rest })

/-- For every state, address a and word w, a host read or write at a is the same step as the one at a with its two low
bits cleared. Derived from 20_memory.md R51, R57. -/
def Obligations.LowAddressBitsAreIgnored : Prop :=
  ∀ (s : State) (a : HostAddr) (w : Word) (rest : List Turn),
    step { s with agenda := .hostRead a :: rest } = step { s with agenda := .hostRead (a &&& 0x1FC#9) :: rest } ∧
    step { s with agenda := .hostWrite a w :: rest } = step { s with agenda := .hostWrite (a &&& 0x1FC#9) w :: rest }

/-- For every host read at any address, the state afterwards differs from the state before only in rdata and the agenda,
the model's own fields. Derived from 20_memory.md R58. -/
def Obligations.HostReadHasNoSideEffect : Prop :=
  ∀ (s t : State) (a : HostAddr) (rest : List Turn), s.agenda = .hostRead a :: rest → step s = .next t →
    t = { s with rdata := t.rdata, agenda := rest }

/-- On a reset turn, from any state (a pending command included), one step gives PB all 0xFF, CMD 0, STATUS 0, RES 0 and
PEND none; no host access reaches that state's discarded command, since PEND is none. The agenda's remaining turns
and rdata are the host's and stay (model's choice, log 4). Derived from 70_reset_and_hazards.md R230, 10_state.md
R35. -/
def Obligations.ResetReturnsEveryPieceOfState : Prop :=
  ∀ (s : State) (rest : List Turn), s.agenda = .reset :: rest → ∃ t : State, step s = .next t ∧
    (∀ a, t.pb.readByte a = 0xFF#8) ∧ t.cmd = 0#32 ∧ t.busy = false ∧ t.p = false ∧ t.err = .none ∧
    t.cmdovr = false ∧ t.pblock = false ∧ t.res = 0#64 ∧ t.pend = none ∧ t.agenda = rest ∧ t.rdata = s.rdata

/-- In State.reset every byte of PB is 0xFF, CMD is 0, BUSY, P, CMDOVR and PBLOCK are 0, ERR is NONE, the STATUS word
(reserved bits included) is 0, RES is 0 and PEND is none. Formalises R35. -/
def Obligations.ResetStateIsAsTabled : Prop :=
  (∀ a, State.reset.pb.readByte a = 0xFF#8) ∧ State.reset.cmd = 0#32 ∧ State.reset.busy = false ∧
    State.reset.p = false ∧ State.reset.err = .none ∧ State.reset.cmdovr = false ∧ State.reset.pblock = false ∧
    statusWord State.reset = 0#32 ∧ State.reset.res = 0#64 ∧ State.reset.pend = none

/-- Legal holds of State.reset: PB canonical, BUSY = 1 exactly when a command is pending, the pending word is CMD.
Derived from 10_state.md R33, R35. -/
def Obligations.LegalStateAtReset : Prop :=
  Legal State.reset

/-- For every state with Legal, whatever the turn: if step answers next t, then PB of t is canonical (its indices below
188), BUSY is 1 exactly when a command is pending, and a pending word is the one CMD shows. Derived from 10_state.md
R24, R26, R33, 20_memory.md R54. -/
def Obligations.EveryStepKeepsTheLegalState : Prop :=
  ∀ s t : State, Legal s → step s = .next t → Legal t

/-- If two packet buffers are canonical and agree on every index below 188, they are equal (the canonical form is the
model's, log 6). Derived from 10_state.md R23. -/
def Obligations.EqualBytesMeanEqualBuffers : Prop :=
  ∀ m m' : Memory, m.wf = true → m'.wf = true → (∀ a, a < 188 → m.readByte a = m'.readByte a) → m = m'

/-- From a state with BUSY = 1 and a command pending, after any list of host reads and writes, PB, CMD, PEND, RES, P and
ERR are what they were; and the engine turn after them ends with the same RES, P, ERR and PB as the command run at
once. Derived from 70_reset_and_hazards.md R240, R241, R242, 00_scope.md R10, 20_memory.md R63. -/
def Obligations.PendingCommandIsNotDisturbed : Prop :=
  ∀ (s : State) (w : Word) (i : Instr) (accesses rest : List Turn), s.busy = true → s.pend = some w →
    decode w = .command i → s.agenda = accesses ++ .engine :: rest → (∀ t ∈ accesses, isHostAccess t = true) →
    ∃ t u v : State, Sys2Proof.core.run accesses.length s = .next t ∧
      t.pb = s.pb ∧ t.cmd = s.cmd ∧ t.pend = s.pend ∧ t.busy = true ∧ t.res = s.res ∧ t.p = s.p ∧ t.err = s.err ∧
      Sys2Proof.core.run (accesses.length + 1) s = .next u ∧ exec i s = .next v ∧
      u.res = v.res ∧ u.p = v.p ∧ u.err = v.err ∧ u.pb = v.pb ∧ u.agenda = rest

/-- From every state with BUSY = 1 and a word pending (in a legal state BUSY is 1 whenever one is), if the agenda lists
no reset, some run of at most (length of the agenda + 1) steps ends with BUSY 0, nothing pending, CMD and PB as they
were, and the RES, P and ERR of the command's own end state: that of exec i where the word decodes to i, raise ILL
where it is illegal. With resets allowed and whatever BUSY is, a run of that length ends with nothing pending, by
completion or by reset. It rests on the model's fairness: after the agenda the engine moves (log 2). Derived from
40_control.md R105, R102, R104, 70_reset_and_hazards.md R230. -/
def Obligations.AcceptedCommandCompletes : Prop :=
  (∀ (s : State) (w : Word), s.busy = true → s.pend = some w → Turn.reset ∉ s.agenda →
      ∃ (k : Nat) (t v : State), k ≤ s.agenda.length + 1 ∧ Sys2Proof.core.run k s = .next t ∧
        (∀ i : Instr, decode w = .command i → exec i s = .next v) ∧ (illegalWord w → v = failed s .ill) ∧
        t.res = v.res ∧ t.p = v.p ∧ t.err = v.err ∧ t.pb = s.pb ∧ t.cmd = s.cmd ∧ t.busy = false ∧ t.pend = none) ∧
    (∀ (s : State) (w : Word), s.pend = some w →
      ∃ (k : Nat) (t : State), k ≤ s.agenda.length + 1 ∧ Sys2Proof.core.run k s = .next t ∧ t.pend = none)

/-- For every command and any two states that agree on the bytes the command may read (and on RES for NANOS), exec
answers next states with the same P and ERR, and the same RES unless the command is NOP, which keeps RES; nothing
else of the states need agree. The spec marks R233 as derived from the commands' rules. Derived from 40_control.md
R106, 70_reset_and_hazards.md R233. -/
def Obligations.ResultsDependOnlyOnTheListedBytes : Prop :=
  ∀ (i : Instr) (s s' : State), (∀ j ∈ footprint s i, s.pb.readByte j = s'.pb.readByte j) →
    (i = .nanos → s.res = s'.res) →
    ∃ t t' : State, exec i s = .next t ∧ exec i s' = .next t' ∧ t.p = t'.p ∧ t.err = t'.err ∧
      (i ≠ .nop → t.res = t'.res)

/-- From a state with BUSY = 0 and the agenda of EXEC i with any number of polls before the completion (log 11), for
well-formed i: running acceptance, polls, completion and last poll ends in a state with the RES, P and ERR of exec
i, CMD the encoding of i, BUSY 0, and the last STATUS read has bit 0 clear; while if there was at least one poll
before, the last of those read bit 0 set. Derived from 30_encoding.md R79, R80, 20_memory.md R63. -/
def Obligations.ExecNotationRunsTheCommand : Prop :=
  ∀ (s : State) (i : Instr) (polls : Nat) (rest : List Turn), WellFormed i = true → s.busy = false →
    s.agenda = opExec i polls ++ rest →
    ∃ b v t : State, Sys2Proof.core.run (1 + polls) s = .next b ∧ b.busy = true ∧ b.pend = some (encode i) ∧
      (0 < polls → b.rdata.getLsbD 0 = true) ∧ exec i s = .next v ∧
      Sys2Proof.core.run (polls + 3) s = .next t ∧ t.res = v.res ∧ t.p = v.p ∧ t.err = v.err ∧ t.pb = s.pb ∧
      t.cmd = encode i ∧ t.busy = false ∧ t.rdata.getLsbD 0 = false ∧ t.agenda = rest

/-- The word 0x00000000 decodes to NOP; in every state NOP completes with P 0 and ERR NONE and leaves RES; the same word
with any bit of 23:0 set is illegal. Formalises R103. -/
def Obligations.NopKeepsResAndClearsErr : Prop :=
  decode 0x00000000#32 = .command .nop ∧
    (∀ s : State, exec .nop s = .next { s with p := false, err := .none, busy := false, pend := none }) ∧
    (∀ w : Word, opcOf w = 0 → w.toNat ≠ 0 → decode w = .illegal .operandBitsNotZero)

/-- Each word decodes to its command, and in every state the command completes: HDR with the big-endian number of bytes
0 to 3; SYNC with byte 0; PID with 256 times the low 5 bits of byte 1 plus byte 2; TSC with bits 7:6, AFC with bits
5:4 and CC with bits 3:0 of byte 3. Formalises R111, R112, R116, R117, R118, R119. -/
def Obligations.HeaderFieldCommandsGiveTheirBytes : Prop :=
  PlainRule .hdr 0x10000000#32 (fun s => succeeded s (beRead s 0 4) false) ∧
    PlainRule .sync 0x11000000#32 (fun s => succeeded s (byteAt s 0) false) ∧
    PlainRule .pid 0x15000000#32 (fun s => succeeded s (byteAt s 1 % 32 * 256 + byteAt s 2) false) ∧
    PlainRule .tsc 0x16000000#32 (fun s => succeeded s (byteAt s 3 / 64) false) ∧
    PlainRule .afc 0x17000000#32 (fun s => succeeded s (byteAt s 3 / 16 % 4) false) ∧
    PlainRule .cc 0x18000000#32 (fun s => succeeded s (byteAt s 3 % 16) false)

/-- Each word decodes to its command, and in every state it completes with RES and P the bit and ERR NONE. Formalises
R113, R114, R115. -/
def Obligations.HeaderFlagCommandsGiveTheirBit : Prop :=
  PlainRule .tei 0x12000000#32 (fun s => succeededBit s (byteBit s 1 7)) ∧
    PlainRule .pusi 0x13000000#32 (fun s => succeededBit s (byteBit s 1 6)) ∧
    PlainRule .tpri 0x14000000#32 (fun s => succeededBit s (byteBit s 1 5))

/-- Each word decodes to its command; in every state HASAF completes with RES and P 1 when AFC is 2 or 3 and 0
otherwise, HASPL with 1 when AFC is 1 or 3 and 0 otherwise, and both are bits 5 and 4 of byte 3. Formalises R120,
R121, R122. -/
def Obligations.AfcTruthTable : Prop :=
  PlainRule .hasaf 0x19000000#32 (fun s => succeededBit s (afcOf s == 2 || afcOf s == 3)) ∧
    PlainRule .haspl 0x1A000000#32 (fun s => succeededBit s (afcOf s == 1 || afcOf s == 3)) ∧
    (∀ s : State, byteBit s 3 5 = (afcOf s == 2 || afcOf s == 3) ∧ byteBit s 3 4 = (afcOf s == 1 || afcOf s == 3))

/-- In every state the results of SYNC, TEI, PUSI, TPRI, PID, TSC, AFC and CC, weighted by their places, sum to the
result of HDR; and two states whose bytes 0 to 3 differ at most in the low 4 bits of byte 3 give the same RES and P
for SYNC, TEI, PUSI, TPRI, PID, TSC, AFC, HASAF and HASPL. The spec marks R123 as derived from R110. Derived from
41_header.md R123, 41_header.md R110. -/
def Obligations.HeaderFieldsCoverTheWord : Prop :=
  (∀ s : State, ∃ h a b c d e f g k : State,
      exec .hdr s = .next h ∧ exec .sync s = .next a ∧ exec .tei s = .next b ∧ exec .pusi s = .next c ∧
      exec .tpri s = .next d ∧ exec .pid s = .next e ∧ exec .tsc s = .next f ∧ exec .afc s = .next g ∧
      exec .cc s = .next k ∧
      h.res.toNat = a.res.toNat * 2 ^ 24 + b.res.toNat * 2 ^ 23 + c.res.toNat * 2 ^ 22 + d.res.toNat * 2 ^ 21 +
        e.res.toNat * 2 ^ 8 + f.res.toNat * 2 ^ 6 + g.res.toNat * 2 ^ 4 + k.res.toNat) ∧
    (∀ s s' : State, byteAt s 0 = byteAt s' 0 → byteAt s 1 = byteAt s' 1 → byteAt s 2 = byteAt s' 2 →
      byteAt s 3 / 16 = byteAt s' 3 / 16 → ∀ i ∈ ccFreeCommands,
      ∃ t t' : State, exec i s = .next t ∧ exec i s' = .next t' ∧ t.res = t'.res ∧ t.p = t'.p)

/-- For each of the 19 commands that begin with AF_CHECK: AFC 0 or 1 gives raise NOAF whatever L is; AFC 2 or 3 with L
above 183 gives raise OOB; and when AF_CHECK passes the command does not fail, except TPDLEN and OFFEXT by
TPD_CHECK. Formalises R131. -/
def Obligations.AfCheckGuardsEveryAfCommand : Prop :=
  ∀ i ∈ afCommands, ∀ s : State,
    (afcOf s = 0 ∨ afcOf s = 1 → exec i s = .next (failed s .noaf)) ∧
    (afcOf s = 2 ∨ afcOf s = 3 → 183 < afLenOf s → exec i s = .next (failed s .oob)) ∧
    (afcOf s = 2 ∨ afcOf s = 3 → afLenOf s ≤ 183 → (i ≠ .tpdlen ∧ i ≠ .offext ∨ TpdReadable s) →
      ∃ t : State, exec i s = .next t ∧ t.err = .none)

/-- Each word decodes to its command; when AF_CHECK passes AFLEN completes with byte 4 and AFFLAGS with byte 5 (for L =
0 too), P 0; otherwise they raise NOAF or OOB. Formalises R134, R135. -/
def Obligations.AflenAndAfflagsGiveTheirByte : Prop :=
  AfRule .aflen 0x20000000#32 (fun s => succeeded s (byteAt s 4) false) ∧
    AfRule .afflags 0x21000000#32 (fun s => succeeded s (byteAt s 5) false)

/-- Each word decodes to its command; when AF_CHECK passes DISC, RAI, ESPRI, HASPCR, HASOPCR, HASSPL, HASTPD and HASEXT
complete with RES and P bit 7, 6, 5, 4, 3, 2, 1 and 0 of byte 5; otherwise they raise NOAF or OOB. Formalises R136,
R137, R138, R139, R140, R141, R142, R143. -/
def Obligations.AfFlagCommandsGiveTheirBit : Prop :=
  AfRule .disc 0x22000000#32 (fun s => succeededBit s (byteBit s 5 7)) ∧
    AfRule .rai 0x23000000#32 (fun s => succeededBit s (byteBit s 5 6)) ∧
    AfRule .espri 0x24000000#32 (fun s => succeededBit s (byteBit s 5 5)) ∧
    AfRule .haspcr 0x25000000#32 (fun s => succeededBit s (byteBit s 5 4)) ∧
    AfRule .hasopcr 0x26000000#32 (fun s => succeededBit s (byteBit s 5 3)) ∧
    AfRule .hasspl 0x27000000#32 (fun s => succeededBit s (byteBit s 5 2)) ∧
    AfRule .hastpd 0x28000000#32 (fun s => succeededBit s (byteBit s 5 1)) ∧
    AfRule .hasext 0x29000000#32 (fun s => succeededBit s (byteBit s 5 0))

/-- The word decodes to SPLICE; when AF_CHECK passes it completes with the byte at 6 plus the lengths of the present PCR
and OPCR and P 1 if the splice flag is set, else with 0 and P 0; otherwise NOAF or OOB. The offset is 18 at most.
Formalises R144. -/
def Obligations.SpliceGivesTheCountdownByte : Prop :=
  AfRule .splice 0x32000000#32 (fun s =>
      if flagOf s 2 then succeeded s (byteAt s (offsetOf s 2)) true else succeeded s 0 false) ∧
    (∀ s : State, offsetOf s 2 ≤ 18)

/-- The word decodes to TPDLEN; when AF_CHECK and TPD_CHECK pass it completes with the byte at the cascading offset and
P 1 if the private-data flag is set, else with 0 and P 0; NOAF, OOB by L, and OOB when the declared length passes
byte 187. Formalises R145. -/
def Obligations.TpdlenGivesTheLengthByte : Prop :=
  TpdRule .tpdlen 0x33000000#32 (fun s =>
      if flagOf s 1 then succeeded s (tpdLenOf s) true else succeeded s 0 false)

/-- Each word decodes to its command; when AF_CHECK passes it completes with 6 plus the total length of the present sub-
fields before it in the fixed order, and P the presence flag of its own sub-field; otherwise NOAF or OOB. Formalises
R146, R147, R148, R149. -/
def Obligations.OffsetCommandsGiveTheCumulativeOffsets : Prop :=
  AfRule .offpcr 0x38000000#32 (fun s => succeeded s (offsetOf s 0) (flagOf s 4)) ∧
    AfRule .offopcr 0x39000000#32 (fun s => succeeded s (offsetOf s 1) (flagOf s 3)) ∧
    AfRule .offspl 0x3A000000#32 (fun s => succeeded s (offsetOf s 2) (flagOf s 2)) ∧
    AfRule .offtpd 0x3B000000#32 (fun s => succeeded s (offsetOf s 3) (flagOf s 1))

/-- The word decodes to OFFEXT; when AF_CHECK and TPD_CHECK pass it completes with 6 plus the total length of the
present sub-fields, the private data counted as 1 plus its length byte, P the extension flag, and the offset is 188
at most; NOAF, OOB by L, and OOB when the declared length passes byte 187. Formalises R150. -/
def Obligations.OffextGivesTheExtensionOffset : Prop :=
  TpdRule .offext 0x3C000000#32 (fun s => succeeded s (extOffsetOf s) (flagOf s 0)) ∧
    (∀ s : State, TpdReadable s → extOffsetOf s ≤ 188)

/-- In every state where AF_CHECK and TPD_CHECK pass, for all 16 combinations of the four flags, the five offset
commands complete with offsets that equal 6 plus the lengths of the present earlier sub-fields, a present PCR leaves
6 bytes before OPCR, a present OPCR 6 bytes before the splice byte, a present splice byte 1 before the private data,
and a present private data its length byte and that many bytes before the extension; an absent one leaves the
extension where it would start. The spec marks R153 as derived from R132. Derived from 42_adaptation.md R153,
42_adaptation.md R132. -/
def Obligations.PresentSubFieldsDoNotOverlap : Prop :=
  ∀ s : State, AfReadable s → TpdReadable s → ∃ pc oc sp tp ex : State,
    exec .offpcr s = .next pc ∧ exec .offopcr s = .next oc ∧ exec .offspl s = .next sp ∧ exec .offtpd s = .next tp ∧
    exec .offext s = .next ex ∧
    pc.res.toNat = 6 ∧ oc.res.toNat = 6 + presentLength [(flagOf s 4, 6)] ∧
    sp.res.toNat = 6 + presentLength [(flagOf s 4, 6), (flagOf s 3, 6)] ∧
    tp.res.toNat = 6 + presentLength [(flagOf s 4, 6), (flagOf s 3, 6), (flagOf s 2, 1)] ∧
    ex.res.toNat = 6 + presentLength
      [(flagOf s 4, 6), (flagOf s 3, 6), (flagOf s 2, 1), (flagOf s 1, 1 + byteAt s tp.res.toNat)] ∧
    (flagOf s 4 = true → oc.res.toNat ≥ pc.res.toNat + 6) ∧ (flagOf s 3 = true → sp.res.toNat ≥ oc.res.toNat + 6) ∧
    (flagOf s 2 = true → tp.res.toNat ≥ sp.res.toNat + 1) ∧
    (flagOf s 1 = true → ex.res.toNat = tp.res.toNat + 1 + byteAt s tp.res.toNat) ∧
    (flagOf s 1 = false → ex.res.toNat = tp.res.toNat)

/-- Each word decodes to its command; without an adaptation field the start is 4; with one and L at most 183 it is 4 + L
+ 1; PLOFF completes with the start and PLLEN with 188 - start, P whether AFC is 1 or 3; with an adaptation field
and L above 183 both raise OOB, and NOAF is never raised. Formalises R151, R152. -/
def Obligations.PayloadWindowCommands : Prop :=
  decode 0x40000000#32 = .command .ploff ∧ decode 0x41000000#32 = .command .pllen ∧
    (∀ s : State, ¬ HasAf s → exec .ploff s = .next (succeeded s 4 (hasPayload s)) ∧
      exec .pllen s = .next (succeeded s (188 - 4) (hasPayload s))) ∧
    (∀ s : State, HasAf s → afLenOf s ≤ 183 →
      exec .ploff s = .next (succeeded s (4 + (afLenOf s + 1)) (hasPayload s)) ∧
      exec .pllen s = .next (succeeded s (188 - (4 + (afLenOf s + 1))) (hasPayload s))) ∧
    (∀ s : State, HasAf s → 183 < afLenOf s → exec .ploff s = .next (failed s .oob) ∧
      exec .pllen s = .next (failed s .oob))

/-- In every state, the two commands complete with RES values that sum to 188 and PLOFF = 5 + L when there is an
adaptation field with L at most 183, and with 4 and 184 when there is none. The spec marks R154 as derived from R151
and R152. Derived from 42_adaptation.md R154, 42_adaptation.md R151, R152. -/
def Obligations.PayloadWindowEndsThePacket : Prop :=
  ∀ s : State,
    (HasAf s → afLenOf s ≤ 183 → ∃ t u : State, exec .ploff s = .next t ∧ exec .pllen s = .next u ∧
      t.res.toNat + u.res.toNat = 188 ∧ t.res.toNat = 5 + byteAt s 4) ∧
    (¬ HasAf s → ∃ t u : State, exec .ploff s = .next t ∧ exec .pllen s = .next u ∧
      t.res.toNat = 4 ∧ u.res.toNat = 184)

/-- The word decodes to PCR; when AF_CHECK passes it completes with 300 times the 33-bit base plus the 9-bit extension
of bytes 6 to 11 and P 1 if the PCR flag is set (whatever L is), else with 0 and P 0; otherwise NOAF or OOB.
Formalises R161. -/
def Obligations.PcrGivesTheTimestamp : Prop :=
  AfRule .pcr 0x30000000#32 (fun s =>
      if flagOf s 4 then succeeded s (timestampAt s 6) true else succeeded s 0 false)

/-- The word decodes to OPCR; when AF_CHECK passes it completes with the timestamp of bytes 12 to 17 and P 1 if the PCR
flag is set, whatever the OPCR flag is, else with 0 and P 0; otherwise NOAF or OOB. Formalises R162. -/
def Obligations.OpcrIsGatedOnThePcrFlag : Prop :=
  AfRule .opcr 0x31000000#32 (fun s =>
      if flagOf s 4 then succeeded s (timestampAt s 12) true else succeeded s 0 false)

/-- Whenever AF_CHECK passes and the PCR flag is set, PCR (window at byte 6) and OPCR (window at byte 12) complete with
RES 300 * base + extension without wrap, at most 2576980377811 and below 2^42, and RES / 300 = base and RES mod 300
= extension exactly when the extension is below 300. The spec marks R166 as derived from R160. Derived from
43_pcr.md R160, R166, 43_pcr.md R161, R162. -/
def Obligations.TimestampComposition : Prop :=
  ∀ s : State, AfReadable s → flagOf s 4 = true → ∀ (i : Instr) (o : Nat), (i = .pcr ∧ o = 6) ∨ (i = .opcr ∧ o = 12) →
    ∃ t : State, exec i s = .next t ∧
      t.res.toNat = 300 * (beRead s o 4 * 2 + (byteBit s (o + 4) 7).toNat) + beRead s (o + 4) 2 % 512 ∧
      t.res.toNat ≤ 2576980377811 ∧ t.res.toNat < 2 ^ 42 ∧
      ((t.res.toNat / 300 = beRead s o 4 * 2 + (byteBit s (o + 4) 7).toNat ∧
          t.res.toNat % 300 = beRead s (o + 4) 2 % 512) ↔
        beRead s (o + 4) 2 % 512 < 300)

/-- The word decodes to NANOS; in every state, if RES is below 498062089990157894 NANOS completes with RES * 1000 / 27
rounded down, exactly, P 0; from that value on, which is the least whose result is not below 2^64, it raises OVF;
and no command but NANOS puts a RES that large there (NOP keeps RES). Formalises R165. -/
def Obligations.NanosConvertsResOrOverflows : Prop :=
  decode 0x50000000#32 = .command .nanos ∧
    (∀ s : State, s.res.toNat < 498062089990157894 → ∃ t : State, exec .nanos s = .next t ∧
      t = succeeded s (s.res.toNat * 1000 / 27) false ∧ t.res.toNat = s.res.toNat * 1000 / 27) ∧
    (∀ s : State, 498062089990157894 ≤ s.res.toNat → exec .nanos s = .next (failed s .ovf)) ∧
    (∀ t : Nat, 2 ^ 64 ≤ t * 1000 / 27 ↔ 498062089990157894 ≤ t) ∧
    (∀ (i : Instr) (s t : State), i ≠ .nanos → i ≠ .nop → exec i s = .next t → t.res.toNat < 498062089990157894)

/-- After any successful PCR or OPCR, NANOS completes with ERR NONE and RES the exact floor of t * 10^9 / (27 * 10^6),
at most 95443717696703 and below 2^47; for every RES below 2^42 the NANOS result is that floor, equals floor(t *
1000 / 27) and is below 2^48. The spec marks R164 as derived from the source's formula. Derived from 43_pcr.md R164. -/
def Obligations.NanosOfATimestampFits : Prop :=
  (∀ (i : Instr) (s t : State), i = .pcr ∨ i = .opcr → exec i s = .next t → t.err = .none →
      ∃ u : State, exec .nanos t = .next u ∧ u.err = .none ∧
        u.res.toNat = t.res.toNat * 10 ^ 9 / (27 * 10 ^ 6) ∧ u.res.toNat ≤ 95443717696703 ∧ u.res.toNat < 2 ^ 47) ∧
    (∀ s : State, s.res.toNat < 2 ^ 42 → ∃ u : State, exec .nanos s = .next u ∧ u.err = .none ∧
      u.res.toNat = s.res.toNat * 10 ^ 9 / (27 * 10 ^ 6) ∧ u.res.toNat = s.res.toNat * 1000 / 27 ∧
      u.res.toNat < 2 ^ 48)

/-- If a command ends with an error, NANOS run on its end state completes with RES 0, P 0 and ERR NONE; and NANOS run
after NOP completes with the RES it would have had without the NOP. Derived from 70_reset_and_hazards.md R244,
43_pcr.md R165. -/
def Obligations.NanosAfterAFailureGivesZero : Prop :=
  (∀ (i : Instr) (s t : State), exec i s = .next t → t.err ≠ .none → exec .nanos t = .next (succeeded t 0 false)) ∧
    (∀ s : State, ∃ t u v : State, exec .nop s = .next t ∧ exec .nanos t = .next u ∧ exec .nanos s = .next v ∧
      u.res = v.res ∧ u.p = v.p ∧ u.err = v.err)

/-- 0x60000000 + A * 256 + B decodes to CRC32 A, B; if A + B is at most 188 it completes with P 0 and RES the CRC of the
message PB[A .. A+B-5] taken as one list of bits, most significant first, from the seed 0xFFFFFFFF with polynomial
0x04C11DB7 and no final XOR, 0 when B is below 4; if A + B is above 188 it raises OOB. Formalises R182. -/
def Obligations.Crc32GivesTheMessageCrc : Prop :=
  (∀ a b : Nat, a < 256 → b < 256 → decode (BitVec.ofNat 32 (0x60000000 + a * 2 ^ 8 + b)) = .command (.crc32 a b)) ∧
    (∀ (a b : Nat) (s : State), a + b ≤ 188 → exec (.crc32 a b) s = .next (succeeded s (crcOf s a b) false)) ∧
    (∀ (a b : Nat) (s : State), 188 < a + b → exec (.crc32 a b) s = .next (failed s .oob))

/-- 0x61000000 + A * 256 + B decodes to CRCCHK A, B; if A + B is at most 188 and B at least 4 it completes with RES the
CRC of the range, in both outcomes, and P 1 exactly when that equals the big-endian number of the last 4 bytes; if B
is below 4 it completes with RES 0 and P 0; if A + B is above 188 it raises OOB. ERR is NONE on a mismatch.
Formalises R183. -/
def Obligations.CrcchkComparesTheTrailer : Prop :=
  (∀ a b : Nat, a < 256 → b < 256 → decode (BitVec.ofNat 32 (0x61000000 + a * 2 ^ 8 + b)) = .command (.crcchk a b)) ∧
    (∀ (a b : Nat) (s : State), a + b ≤ 188 → 4 ≤ b → exec (.crcchk a b) s =
      .next (succeeded s (crcOf s a b) (crcOf s a b == beRead s (a + b - 4) 4))) ∧
    (∀ (a b : Nat) (s : State), a + b ≤ 188 → b < 4 → exec (.crcchk a b) s = .next (succeeded s 0 false)) ∧
    (∀ (a b : Nat) (s : State), 188 < a + b → exec (.crcchk a b) s = .next (failed s .oob))

/-- For every 32-bit accumulator and byte, crc_byte(acc, b) = (acc shifted left by 8) XOR T[acc[31:24] XOR b], where
T[i] = crc_byte(i * 2^24, 0); and T[0] = 0, T[1] = 0x04C11DB7, T[0x80] = 0x690CE0EE. The spec marks R184 as derived
from R180. Derived from 44_crc.md R184, 44_crc.md R180. -/
def Obligations.TableDrivenCrcIsEquivalent : Prop :=
  (∀ (acc : Word) (b : Byte), crcByte acc b = (acc <<< 8) ^^^
      crcByte (BitVec.ofNat 32 ((acc.extractLsb' 24 8 ^^^ b).toNat * 2 ^ 24)) 0#8) ∧
    crcByte 0x00000000#32 0#8 = 0x00000000#32 ∧ crcByte 0x01000000#32 0#8 = 0x04C11DB7#32 ∧
    crcByte 0x80000000#32 0#8 = 0x690CE0EE#32

/-- If CRC32 over n bytes at s gives c and the range's last 4 bytes are the big-endian bytes of c, then CRC32 over n + 4
bytes at s gives 0, whatever the next 4 bytes are, provided the longer range is inside the packet; and CRC32 over 8
bytes of 0xFF gives 0. The spec marks R185 as derived from R180 and R181. Derived from 44_crc.md R185, 44_crc.md
R180, R181. -/
def Obligations.CrcResidueIsZero : Prop :=
  (∀ (s t : State) (a n : Nat), 4 ≤ n → a + n + 4 ≤ 188 → exec (.crc32 a n) s = .next t →
      t.res.toNat = beRead s (a + n - 4) 4 → exec (.crc32 a (n + 4)) s = .next (succeeded s 0 false)) ∧
    (∀ (s : State) (a : Nat), a + 8 ≤ 188 → (∀ j, a ≤ j → j < a + 8 → byteAt s j = 0xFF) →
      exec (.crc32 a 8) s = .next (succeeded s 0 false))

/-- In every state whose PB bytes 0 to 4 hold the reset fill 0xFF, HDR completes with 0xFFFFFFFF and AFC with 3, and
each of the 19 adaptation-field commands raises OOB; State.reset is such a state. Derived from
70_reset_and_hazards.md R232. -/
def Obligations.CommandsOnTheResetFill : Prop :=
  (∀ s : State, (∀ j, j < 5 → s.pb.readByte j = 0xFF#8) →
      exec .hdr s = .next (succeeded s 0xFFFFFFFF false) ∧ exec .afc s = .next (succeeded s 3 false) ∧
      ∀ i ∈ afCommands, exec i s = .next (failed s .oob)) ∧
    (∀ j, j < 5 → State.reset.pb.readByte j = 0xFF#8)
end

