-- ==== Sys2Proof/Laws/Crc.lean ====
section
/-! SUPPORT. The CRC step: one round, the eight rounds over a byte's bits, what they do to an accumulator that is a XOR,
and the CRC of a message that grows. -/

namespace Sys2Proof.Machine

open Sys2Proof.Safety

/-- One round of `crc_byte` on the compare bit `x`. -/
abbrev crcRound (acc : Word) (x : Bool) : Word :=
  if acc.msb ≠ x then (acc <<< 1) ^^^ Config.crcPoly else acc <<< 1

@[simp] theorem crcSteps_zero (acc : Word) (b : Byte) : crcSteps 0 acc b = acc := rfl

theorem crcSteps_succ (n : Nat) (acc : Word) (b : Byte) :
    crcSteps (n + 1) acc b = crcSteps n (crcRound acc b.msb) (b <<< 1) := rfl

/-- The CRC of a message goes on from the CRC of its first part. -/
theorem crcBytes_append (xs ys : List Byte) : crcBytes (xs ++ ys) = ys.foldl crcByte (crcBytes xs) := by
  simp [crcBytes]

/-- A round of `crc_byte` is a shift-and-compare step on the accumulator's number. -/
theorem crcRound_toNat (acc : Word) (x : Bool) : (crcRound acc x).toNat = crcShift acc.toNat x := by
  have hm : acc.msb = (acc.toNat / 2 ^ 31 == 1) := by
    have := acc.isLt
    rw [BitVec.msb_eq_decide, Bool.eq_iff_iff, decide_eq_true_iff, beq_iff_eq]
    omega
  have hs : (acc <<< 1).toNat = acc.toNat * 2 % 2 ^ 32 := by rw [BitVec.toNat_shiftLeft, Nat.shiftLeft_eq]
  rw [crcRound, crcShift, hm]
  generalize (acc.toNat / 2 ^ 31 == 1) = y
  cases y <;> cases x <;>
    simp only [ne_eq, not_true_eq_false, if_false, not_false_eq_true, if_true, bne_self_eq_false, reduceCtorEq,
      BitVec.toNat_xor, hs, Config.crcPoly] <;> rfl

/-- The first `n` rounds take the byte's bits from the top. -/
theorem crcSteps_toNat : ∀ (n : Nat) (acc : Word) (b : Byte), n ≤ 8 →
    (crcSteps n acc b).toNat = ((List.range n).map fun j => b.getLsbD (7 - j)).foldl crcShift acc.toNat
  | 0, _, _, _ => rfl
  | n + 1, acc, b, h => by
    have hb : b.msb = b.getLsbD 7 := BitVec.msb_eq_getLsbD_last b
    rw [crcSteps_succ, crcSteps_toNat n _ _ (by omega), List.range_succ_eq_map, List.map_cons, List.foldl_cons,
      List.map_map, crcRound_toNat, hb]
    congr 1
    refine List.map_congr_left fun j hj => ?_
    have hj := List.mem_range.mp hj
    have h1 : 7 - j < 8 := by omega
    have h2 : ¬ 7 - j < 1 := by omega
    have h3 : 7 - j - 1 = 7 - (j + 1) := by omega
    simp only [BitVec.getLsbD_shiftLeft, h1, h2, h3, decide_true, decide_false, Bool.not_false, Bool.true_and,
      Function.comp_apply, Nat.succ_eq_add_one]

/-- `crc_byte` takes the eight bits of the byte, most significant first. -/
theorem crcByte_toNat (acc : Word) (b : Byte) : (crcByte acc b).toNat = (byteBits b).foldl crcShift acc.toNat :=
  crcSteps_toNat 8 acc b (by omega)

theorem foldl_crcByte_toNat : ∀ (bs : List Byte) (acc : Word),
    (bs.foldl crcByte acc).toNat = (bs.flatMap byteBits).foldl crcShift acc.toNat
  | [], _ => rfl
  | b :: bs, acc => by
    rw [List.foldl_cons, foldl_crcByte_toNat bs, crcByte_toNat, List.flatMap_cons, List.foldl_append]

/-- The byte-wise CRC is the CRC over all the message's bits. -/
theorem crcBytes_toNat (bs : List Byte) : (crcBytes bs).toNat = messageCrc bs := foldl_crcByte_toNat bs _

/-! ### Rounds on a XOR -/

theorem xor_swap (a b c : Word) : a ^^^ b ^^^ c = a ^^^ c ^^^ b := by
  rw [BitVec.xor_assoc, BitVec.xor_comm b c, ← BitVec.xor_assoc]

/-- A round is linear: the second accumulator's top bit joins the compare bit, and the rest of it only shifts. -/
theorem crcRound_xor (x y : Word) (p : Bool) : crcRound (x ^^^ y) p = crcRound x (p ^^ y.msb) ^^^ (y <<< 1) := by
  rw [crcRound, crcRound, BitVec.msb_xor, BitVec.shiftLeft_xor_distrib, xor_swap]
  generalize x.msb = a; generalize y.msb = b
  generalize x <<< 1 = X; generalize y <<< 1 = Y
  cases a <;> cases b <;> cases p <;> rfl

/-- The byte in bits 31:24. -/
def topByte (b : Byte) : Word := b.setWidth 32 <<< 24

theorem topByte_toNat (b : Byte) : (topByte b).toNat = b.toNat * 2 ^ 24 := by
  have := b.isLt
  rw [topByte, BitVec.toNat_shiftLeft, Nat.shiftLeft_eq, BitVec.toNat_setWidth]; omega

theorem topByte_msb (b : Byte) : (topByte b).msb = b.msb := by
  rw [BitVec.msb_eq_decide, BitVec.msb_eq_decide, topByte_toNat, Bool.eq_iff_iff, decide_eq_true_iff,
    decide_eq_true_iff]
  omega

theorem topByte_shiftLeft_one (b : Byte) : topByte (b <<< 1) = topByte b <<< 1 := by
  apply BitVec.eq_of_toNat_eq
  rw [BitVec.toNat_shiftLeft, topByte_toNat, topByte_toNat, BitVec.toNat_shiftLeft, Nat.shiftLeft_eq, Nat.shiftLeft_eq]
  omega

/-- A message byte may be XORed into the top of the accumulator before its rounds. -/
theorem crcSteps_topByte : ∀ (n : Nat) (acc : Word) (b : Byte),
    crcSteps n (acc ^^^ topByte b) 0#8 = crcSteps n acc b ^^^ (topByte b <<< n)
  | 0, acc, b => by rw [crcSteps_zero, crcSteps_zero, BitVec.shiftLeft_zero]
  | n + 1, acc, b => by
    have h := crcRound_xor acc (topByte b) false
    rw [topByte_msb, Bool.false_xor, ← topByte_shiftLeft_one] at h
    have e : crcSteps (n + 1) (acc ^^^ topByte b) 0#8 = crcSteps n (crcRound (acc ^^^ topByte b) false) 0#8 := rfl
    rw [e, h, crcSteps_topByte n _ (b <<< 1), crcSteps_succ, topByte_shiftLeft_one, ← BitVec.shiftLeft_add,
      Nat.add_comm 1 n]

/-- The part of an accumulator that no round reaches only shifts. -/
theorem crcSteps_xor_low : ∀ (n : Nat) (x y : Word), n ≤ 32 → y.toNat < 2 ^ (32 - n) →
    crcSteps n (x ^^^ y) 0#8 = crcSteps n x 0#8 ^^^ (y <<< n)
  | 0, x, y, _, _ => by rw [crcSteps_zero, crcSteps_zero, BitVec.shiftLeft_zero]
  | n + 1, x, y, hn, hy => by
    have hp : 2 ^ (32 - n) = 2 ^ (32 - (n + 1)) * 2 := by rw [← Nat.pow_succ]; congr 1; omega
    have hl : y.toNat < 2 ^ 31 := lt_of_lt_of_le hy (Nat.pow_le_pow_right (by omega) (by omega))
    have hm : y.msb = false := by rw [BitVec.msb_eq_decide, decide_eq_false_iff_not]; omega
    have hy' : (y <<< 1).toNat < 2 ^ (32 - n) := by rw [BitVec.toNat_shiftLeft, Nat.shiftLeft_eq]; omega
    have h := crcRound_xor x y false
    rw [hm, Bool.xor_false] at h
    have e : ∀ z, crcSteps (n + 1) z 0#8 = crcSteps n (crcRound z false) 0#8 := fun _ => rfl
    rw [e, e, h, crcSteps_xor_low n _ _ (by omega) hy', ← BitVec.shiftLeft_add, Nat.add_comm 1 n]

end Sys2Proof.Machine
end

