-- ==== Sys2Proof/Laws/State.lean ====
section
/-! SUPPORT. One lemma per field per update of the state: what each named update writes and what it leaves alone. -/

namespace Sys2Proof.Machine

/-! ### `State.complete` -/

@[simp] theorem State.complete_pb (s : State) (r : Nat) (x : Bool) : (s.complete r x).pb = s.pb := rfl
@[simp] theorem State.complete_cmd (s : State) (r : Nat) (x : Bool) : (s.complete r x).cmd = s.cmd := rfl
@[simp] theorem State.complete_busy (s : State) (r : Nat) (x : Bool) : (s.complete r x).busy = false := rfl
@[simp] theorem State.complete_p (s : State) (r : Nat) (x : Bool) : (s.complete r x).p = x := rfl
@[simp] theorem State.complete_err (s : State) (r : Nat) (x : Bool) : (s.complete r x).err = ErrCode.none := rfl
@[simp] theorem State.complete_cmdovr (s : State) (r : Nat) (x : Bool) : (s.complete r x).cmdovr = s.cmdovr := rfl
@[simp] theorem State.complete_pblock (s : State) (r : Nat) (x : Bool) : (s.complete r x).pblock = s.pblock := rfl
@[simp] theorem State.complete_res (s : State) (r : Nat) (x : Bool) : (s.complete r x).res = BitVec.ofNat 64 r := rfl
@[simp] theorem State.complete_pend (s : State) (r : Nat) (x : Bool) : (s.complete r x).pend = none := rfl
@[simp] theorem State.complete_rdata (s : State) (r : Nat) (x : Bool) : (s.complete r x).rdata = s.rdata := rfl
@[simp] theorem State.complete_agenda (s : State) (r : Nat) (x : Bool) : (s.complete r x).agenda = s.agenda := rfl

/-! ### `State.completeKeep` -/

@[simp] theorem State.completeKeep_pb (s : State) (x : Bool) : (s.completeKeep x).pb = s.pb := rfl
@[simp] theorem State.completeKeep_cmd (s : State) (x : Bool) : (s.completeKeep x).cmd = s.cmd := rfl
@[simp] theorem State.completeKeep_busy (s : State) (x : Bool) : (s.completeKeep x).busy = false := rfl
@[simp] theorem State.completeKeep_p (s : State) (x : Bool) : (s.completeKeep x).p = x := rfl
@[simp] theorem State.completeKeep_err (s : State) (x : Bool) : (s.completeKeep x).err = ErrCode.none := rfl
@[simp] theorem State.completeKeep_cmdovr (s : State) (x : Bool) : (s.completeKeep x).cmdovr = s.cmdovr := rfl
@[simp] theorem State.completeKeep_pblock (s : State) (x : Bool) : (s.completeKeep x).pblock = s.pblock := rfl
@[simp] theorem State.completeKeep_res (s : State) (x : Bool) : (s.completeKeep x).res = s.res := rfl
@[simp] theorem State.completeKeep_pend (s : State) (x : Bool) : (s.completeKeep x).pend = none := rfl
@[simp] theorem State.completeKeep_rdata (s : State) (x : Bool) : (s.completeKeep x).rdata = s.rdata := rfl
@[simp] theorem State.completeKeep_agenda (s : State) (x : Bool) : (s.completeKeep x).agenda = s.agenda := rfl

/-! ### `State.raise` -/

@[simp] theorem State.raise_pb (s : State) (e : ErrCode) : (s.raise e).pb = s.pb := rfl
@[simp] theorem State.raise_cmd (s : State) (e : ErrCode) : (s.raise e).cmd = s.cmd := rfl
@[simp] theorem State.raise_busy (s : State) (e : ErrCode) : (s.raise e).busy = false := rfl
@[simp] theorem State.raise_p (s : State) (e : ErrCode) : (s.raise e).p = false := rfl
@[simp] theorem State.raise_err (s : State) (e : ErrCode) : (s.raise e).err = e := rfl
@[simp] theorem State.raise_cmdovr (s : State) (e : ErrCode) : (s.raise e).cmdovr = s.cmdovr := rfl
@[simp] theorem State.raise_pblock (s : State) (e : ErrCode) : (s.raise e).pblock = s.pblock := rfl
@[simp] theorem State.raise_res (s : State) (e : ErrCode) : (s.raise e).res = 0#64 := rfl
@[simp] theorem State.raise_pend (s : State) (e : ErrCode) : (s.raise e).pend = none := rfl
@[simp] theorem State.raise_rdata (s : State) (e : ErrCode) : (s.raise e).rdata = s.rdata := rfl
@[simp] theorem State.raise_agenda (s : State) (e : ErrCode) : (s.raise e).agenda = s.agenda := rfl

/-! ### `State.accept` -/

@[simp] theorem State.accept_pb (s : State) (w : Word) : (s.accept w).pb = s.pb := rfl
@[simp] theorem State.accept_cmd (s : State) (w : Word) : (s.accept w).cmd = w := rfl
@[simp] theorem State.accept_busy (s : State) (w : Word) : (s.accept w).busy = true := rfl
@[simp] theorem State.accept_p (s : State) (w : Word) : (s.accept w).p = s.p := rfl
@[simp] theorem State.accept_err (s : State) (w : Word) : (s.accept w).err = s.err := rfl
@[simp] theorem State.accept_cmdovr (s : State) (w : Word) : (s.accept w).cmdovr = s.cmdovr := rfl
@[simp] theorem State.accept_pblock (s : State) (w : Word) : (s.accept w).pblock = s.pblock := rfl
@[simp] theorem State.accept_res (s : State) (w : Word) : (s.accept w).res = s.res := rfl
@[simp] theorem State.accept_pend (s : State) (w : Word) : (s.accept w).pend = some w := rfl
@[simp] theorem State.accept_rdata (s : State) (w : Word) : (s.accept w).rdata = s.rdata := rfl
@[simp] theorem State.accept_agenda (s : State) (w : Word) : (s.accept w).agenda = s.agenda := rfl

/-! ### `State.writeStatus` -/

@[simp] theorem State.writeStatus_pb (s : State) (w : Word) : (s.writeStatus w).pb = s.pb := rfl
@[simp] theorem State.writeStatus_cmd (s : State) (w : Word) : (s.writeStatus w).cmd = s.cmd := rfl
@[simp] theorem State.writeStatus_busy (s : State) (w : Word) : (s.writeStatus w).busy = s.busy := rfl
@[simp] theorem State.writeStatus_p (s : State) (w : Word) : (s.writeStatus w).p = s.p := rfl
@[simp] theorem State.writeStatus_err (s : State) (w : Word) : (s.writeStatus w).err = s.err := rfl
@[simp] theorem State.writeStatus_cmdovr (s : State) (w : Word) : (s.writeStatus w).cmdovr = (s.cmdovr && bit w.toNat 8 == 0) := rfl
@[simp] theorem State.writeStatus_pblock (s : State) (w : Word) : (s.writeStatus w).pblock = (s.pblock && bit w.toNat 9 == 0) := rfl
@[simp] theorem State.writeStatus_res (s : State) (w : Word) : (s.writeStatus w).res = s.res := rfl
@[simp] theorem State.writeStatus_pend (s : State) (w : Word) : (s.writeStatus w).pend = s.pend := rfl
@[simp] theorem State.writeStatus_rdata (s : State) (w : Word) : (s.writeStatus w).rdata = s.rdata := rfl
@[simp] theorem State.writeStatus_agenda (s : State) (w : Word) : (s.writeStatus w).agenda = s.agenda := rfl

/-! ### `State.dropCommand` -/

@[simp] theorem State.dropCommand_pb (s : State) : (s.dropCommand).pb = s.pb := rfl
@[simp] theorem State.dropCommand_cmd (s : State) : (s.dropCommand).cmd = s.cmd := rfl
@[simp] theorem State.dropCommand_busy (s : State) : (s.dropCommand).busy = s.busy := rfl
@[simp] theorem State.dropCommand_p (s : State) : (s.dropCommand).p = s.p := rfl
@[simp] theorem State.dropCommand_err (s : State) : (s.dropCommand).err = s.err := rfl
@[simp] theorem State.dropCommand_cmdovr (s : State) : (s.dropCommand).cmdovr = true := rfl
@[simp] theorem State.dropCommand_pblock (s : State) : (s.dropCommand).pblock = s.pblock := rfl
@[simp] theorem State.dropCommand_res (s : State) : (s.dropCommand).res = s.res := rfl
@[simp] theorem State.dropCommand_pend (s : State) : (s.dropCommand).pend = s.pend := rfl
@[simp] theorem State.dropCommand_rdata (s : State) : (s.dropCommand).rdata = s.rdata := rfl
@[simp] theorem State.dropCommand_agenda (s : State) : (s.dropCommand).agenda = s.agenda := rfl

/-! ### `State.dropPbWrite` -/

@[simp] theorem State.dropPbWrite_pb (s : State) : (s.dropPbWrite).pb = s.pb := rfl
@[simp] theorem State.dropPbWrite_cmd (s : State) : (s.dropPbWrite).cmd = s.cmd := rfl
@[simp] theorem State.dropPbWrite_busy (s : State) : (s.dropPbWrite).busy = s.busy := rfl
@[simp] theorem State.dropPbWrite_p (s : State) : (s.dropPbWrite).p = s.p := rfl
@[simp] theorem State.dropPbWrite_err (s : State) : (s.dropPbWrite).err = s.err := rfl
@[simp] theorem State.dropPbWrite_cmdovr (s : State) : (s.dropPbWrite).cmdovr = s.cmdovr := rfl
@[simp] theorem State.dropPbWrite_pblock (s : State) : (s.dropPbWrite).pblock = true := rfl
@[simp] theorem State.dropPbWrite_res (s : State) : (s.dropPbWrite).res = s.res := rfl
@[simp] theorem State.dropPbWrite_pend (s : State) : (s.dropPbWrite).pend = s.pend := rfl
@[simp] theorem State.dropPbWrite_rdata (s : State) : (s.dropPbWrite).rdata = s.rdata := rfl
@[simp] theorem State.dropPbWrite_agenda (s : State) : (s.dropPbWrite).agenda = s.agenda := rfl

/-! ### `State.storePb` -/

@[simp] theorem State.storePb_pb (s : State) (k : Nat) (w : Word) : (s.storePb k w).pb = s.pb.writeWord k w := rfl
@[simp] theorem State.storePb_cmd (s : State) (k : Nat) (w : Word) : (s.storePb k w).cmd = s.cmd := rfl
@[simp] theorem State.storePb_busy (s : State) (k : Nat) (w : Word) : (s.storePb k w).busy = s.busy := rfl
@[simp] theorem State.storePb_p (s : State) (k : Nat) (w : Word) : (s.storePb k w).p = s.p := rfl
@[simp] theorem State.storePb_err (s : State) (k : Nat) (w : Word) : (s.storePb k w).err = s.err := rfl
@[simp] theorem State.storePb_cmdovr (s : State) (k : Nat) (w : Word) : (s.storePb k w).cmdovr = s.cmdovr := rfl
@[simp] theorem State.storePb_pblock (s : State) (k : Nat) (w : Word) : (s.storePb k w).pblock = s.pblock := rfl
@[simp] theorem State.storePb_res (s : State) (k : Nat) (w : Word) : (s.storePb k w).res = s.res := rfl
@[simp] theorem State.storePb_pend (s : State) (k : Nat) (w : Word) : (s.storePb k w).pend = s.pend := rfl
@[simp] theorem State.storePb_rdata (s : State) (k : Nat) (w : Word) : (s.storePb k w).rdata = s.rdata := rfl
@[simp] theorem State.storePb_agenda (s : State) (k : Nat) (w : Word) : (s.storePb k w).agenda = s.agenda := rfl

/-! ### `State.hostRead` -/

@[simp] theorem State.hostRead_pb (s : State) (a : HostAddr) : (s.hostRead a).pb = s.pb := rfl
@[simp] theorem State.hostRead_cmd (s : State) (a : HostAddr) : (s.hostRead a).cmd = s.cmd := rfl
@[simp] theorem State.hostRead_busy (s : State) (a : HostAddr) : (s.hostRead a).busy = s.busy := rfl
@[simp] theorem State.hostRead_p (s : State) (a : HostAddr) : (s.hostRead a).p = s.p := rfl
@[simp] theorem State.hostRead_err (s : State) (a : HostAddr) : (s.hostRead a).err = s.err := rfl
@[simp] theorem State.hostRead_cmdovr (s : State) (a : HostAddr) : (s.hostRead a).cmdovr = s.cmdovr := rfl
@[simp] theorem State.hostRead_pblock (s : State) (a : HostAddr) : (s.hostRead a).pblock = s.pblock := rfl
@[simp] theorem State.hostRead_res (s : State) (a : HostAddr) : (s.hostRead a).res = s.res := rfl
@[simp] theorem State.hostRead_pend (s : State) (a : HostAddr) : (s.hostRead a).pend = s.pend := rfl
@[simp] theorem State.hostRead_rdata (s : State) (a : HostAddr) : (s.hostRead a).rdata = hostWord s a := rfl
@[simp] theorem State.hostRead_agenda (s : State) (a : HostAddr) : (s.hostRead a).agenda = s.agenda := rfl

/-! ### `State.resetEngine` -/

@[simp] theorem State.resetEngine_pb (s : State) : (s.resetEngine).pb = [] := rfl
@[simp] theorem State.resetEngine_cmd (s : State) : (s.resetEngine).cmd = 0#32 := rfl
@[simp] theorem State.resetEngine_busy (s : State) : (s.resetEngine).busy = false := rfl
@[simp] theorem State.resetEngine_p (s : State) : (s.resetEngine).p = false := rfl
@[simp] theorem State.resetEngine_err (s : State) : (s.resetEngine).err = ErrCode.none := rfl
@[simp] theorem State.resetEngine_cmdovr (s : State) : (s.resetEngine).cmdovr = false := rfl
@[simp] theorem State.resetEngine_pblock (s : State) : (s.resetEngine).pblock = false := rfl
@[simp] theorem State.resetEngine_res (s : State) : (s.resetEngine).res = 0#64 := rfl
@[simp] theorem State.resetEngine_pend (s : State) : (s.resetEngine).pend = none := rfl
@[simp] theorem State.resetEngine_rdata (s : State) : (s.resetEngine).rdata = s.rdata := rfl
@[simp] theorem State.resetEngine_agenda (s : State) : (s.resetEngine).agenda = s.agenda := rfl

/-! ### `State.withPending` -/

@[simp] theorem State.withPending_pb (s : State) (w : Word) : (s.withPending w).pb = s.pb := rfl
@[simp] theorem State.withPending_cmd (s : State) (w : Word) : (s.withPending w).cmd = w := rfl
@[simp] theorem State.withPending_busy (s : State) (w : Word) : (s.withPending w).busy = true := rfl
@[simp] theorem State.withPending_p (s : State) (w : Word) : (s.withPending w).p = s.p := rfl
@[simp] theorem State.withPending_err (s : State) (w : Word) : (s.withPending w).err = s.err := rfl
@[simp] theorem State.withPending_cmdovr (s : State) (w : Word) : (s.withPending w).cmdovr = s.cmdovr := rfl
@[simp] theorem State.withPending_pblock (s : State) (w : Word) : (s.withPending w).pblock = s.pblock := rfl
@[simp] theorem State.withPending_res (s : State) (w : Word) : (s.withPending w).res = s.res := rfl
@[simp] theorem State.withPending_pend (s : State) (w : Word) : (s.withPending w).pend = some w := rfl
@[simp] theorem State.withPending_rdata (s : State) (w : Word) : (s.withPending w).rdata = s.rdata := rfl
@[simp] theorem State.withPending_agenda (s : State) (w : Word) : (s.withPending w).agenda = Turn.engine :: s.agenda := rfl

end Sys2Proof.Machine
end

