-- ==== Sys2Proof/Laws/Cycle.lean ====
section
/-! SUPPORT. What one step can do, by whose turn it is. -/

namespace Sys2Proof.Machine

theorem step_of_nil {s : State} (h : s.agenda = []) : step s = engineTurn s := by
  simp only [step, nextTurn, h]

theorem step_of_cons {s : State} {t : Turn} {rest : List Turn} (h : s.agenda = t :: rest) :
    step s = takeTurn t { s with agenda := rest } := by
  simp only [step, nextTurn, h]

theorem engineTurn_of_none {s : State} (h : s.pend = none) : engineTurn s = .next s := by
  simp only [engineTurn, h]

theorem engineTurn_of_command {s : State} {w : Word} {i : Instr} (h : s.pend = some w) (hd : decode w = .command i) :
    engineTurn s = exec i s := by
  simp only [engineTurn, h, hd]

theorem engineTurn_of_illegal {s : State} {w : Word} {r : Reject} (h : s.pend = some w) (hd : decode w = .illegal r) :
    engineTurn s = .next (s.raise .ill) := by
  simp only [engineTurn, h, hd, execIllegal, raise]

/-- Which register a host address selects, by the word it lies in (20_memory.md R52). -/
theorem hostTarget_eq (a : HostAddr) : hostTarget a =
    if a.toNat / 4 = 0 then .cmd else if a.toNat / 4 = 1 then .status else if a.toNat / 4 = 2 then .resLo
    else if a.toNat / 4 = 3 then .resHi
    else if 64 ≤ a.toNat / 4 ∧ a.toNat / 4 ≤ 110 then .pbw (a.toNat / 4 - 64) else .reserved := by
  have h : bits a.toNat 8 2 = a.toNat / 4 := by
    have := a.isLt
    simp only [bits]; omega
  simp only [hostTarget, h]

/-- A host write touches nothing but what its target names. -/
theorem hostWrite_cases (s : State) (a : HostAddr) (w : Word) :
    s.hostWrite a w = s ∨ s.hostWrite a w = s.accept w ∧ s.busy = false ∨ s.hostWrite a w = s.dropCommand ∧ s.busy = true ∨
    s.hostWrite a w = s.writeStatus w ∨ s.hostWrite a w = s.dropPbWrite ∧ s.busy = true ∨
    ∃ k, k ≤ 46 ∧ hostTarget a = .pbw k ∧ s.busy = false ∧ s.hostWrite a w = s.storePb k w := by
  cases hb : s.busy <;> cases ht : hostTarget a <;> simp [State.hostWrite, ht, hb]
  rw [hostTarget_eq] at ht
  rename_i k
  have hk : k ≤ 46 := by
    split_ifs at ht
    cases ht
    omega
  exact .inr (.inr (.inr hk))

end Sys2Proof.Machine
end

