-- ==== Sys2Proof/Laws/Memory.lean ====
section
/-! SUPPORT. The packet buffer: read after write, the canonical form, and big-endian reads. -/

namespace Sys2Proof.Machine

@[simp] theorem Memory.readByte_nil (a : Nat) : Memory.readByte [] a = Config.resetFill := rfl

theorem Memory.readByte_cons (b : Nat) (v : Byte) (rest : Memory) (a : Nat) :
    Memory.readByte ((b, v) :: rest) a = if b = a then v else Memory.readByte rest a := rfl

theorem Memory.wfFrom_cons (lo a : Nat) (v : Byte) (rest : Memory) :
    Memory.wfFrom lo ((a, v) :: rest) = true ↔
      lo ≤ a ∧ a < Config.pktBytes ∧ v ≠ Config.resetFill ∧ Memory.wfFrom (a + 1) rest = true := by
  simp [Memory.wfFrom, and_assoc]

theorem Memory.wf_nil : Memory.wf [] = true := rfl

/-- A canonical buffer stays one when the lower bound falls. -/
theorem Memory.wfFrom_mono {lo lo' : Nat} (h : lo' ≤ lo) : ∀ {m : Memory}, m.wfFrom lo = true → m.wfFrom lo' = true
  | [], _ => rfl
  | (a, v) :: rest, hm => by
    rw [Memory.wfFrom_cons] at hm ⊢
    exact ⟨h.trans hm.1, hm.2⟩

/-- Below its lower bound a canonical buffer holds the reset fill. -/
theorem Memory.readByte_of_lt : ∀ {m : Memory} {lo a : Nat}, m.wfFrom lo = true → a < lo →
    m.readByte a = Config.resetFill
  | [], _, _, _, _ => rfl
  | (b, v) :: rest, lo, a, hm, ha => by
    rw [Memory.wfFrom_cons] at hm
    rw [Memory.readByte_cons, if_neg (by omega)]
    exact Memory.readByte_of_lt hm.2.2.2 (by omega)

/-- A write leaves every other byte alone. -/
theorem Memory.readByte_writeByte_other : ∀ (m : Memory) (a c : Nat) (v : Byte), c ≠ a →
    (m.writeByte a v).readByte c = m.readByte c
  | [], a, c, v, h => by
    by_cases hv : v = Config.resetFill <;> simp [Memory.writeByte, hv, Memory.readByte_cons, h.symm]
  | (b, u) :: rest, a, c, v, h => by
    have ih := Memory.readByte_writeByte_other rest a c v h
    unfold Memory.writeByte
    split
    · split <;> simp [Memory.readByte_cons, h.symm]
    · split
      · rename_i hab; subst hab
        split <;> simp [Memory.readByte_cons, h.symm]
      · simp [Memory.readByte_cons, ih]

/-- A byte written is the byte read. -/
theorem Memory.readByte_writeByte_same : ∀ {m : Memory} {lo : Nat} (a : Nat) (v : Byte), m.wfFrom lo = true →
    (m.writeByte a v).readByte a = v
  | [], _, a, v, _ => by
    by_cases hv : v = Config.resetFill <;> simp [Memory.writeByte, hv, Memory.readByte_cons]
  | (b, u) :: rest, lo, a, v, hm => by
    rw [Memory.wfFrom_cons] at hm
    have ih := Memory.readByte_writeByte_same a v hm.2.2.2
    unfold Memory.writeByte
    split
    · rename_i hab
      split
      · rename_i hv
        rw [Memory.readByte_cons, if_neg (by omega), Memory.readByte_of_lt hm.2.2.2 (by omega), hv]
      · simp [Memory.readByte_cons]
    · split
      · rename_i hab; subst hab
        split
        · rename_i hv
          rw [Memory.readByte_of_lt hm.2.2.2 (by omega), hv]
        · simp [Memory.readByte_cons]
      · rename_i hab
        rw [Memory.readByte_cons, if_neg (by omega), ih]

/-- A write inside the packet keeps the canonical form. -/
theorem Memory.wfFrom_writeByte : ∀ {m : Memory} {lo : Nat} (a : Nat) (v : Byte), m.wfFrom lo = true → lo ≤ a →
    a < Config.pktBytes → (m.writeByte a v).wfFrom lo = true
  | [], lo, a, v, _, hlo, ha => by
    unfold Memory.writeByte
    split
    · rfl
    · rename_i hv
      exact (Memory.wfFrom_cons ..).2 ⟨hlo, ha, hv, rfl⟩
  | (b, u) :: rest, lo, a, v, hm, hlo, ha => by
    have hm' := hm
    rw [Memory.wfFrom_cons] at hm
    unfold Memory.writeByte
    split
    · split
      · exact hm'
      · rename_i hab hv
        exact (Memory.wfFrom_cons ..).2 ⟨hlo, ha, hv, (Memory.wfFrom_cons ..).2 ⟨by omega, hm.2⟩⟩
    · split
      · rename_i hab; subst hab
        split
        · exact Memory.wfFrom_mono (by omega) hm.2.2.2
        · rename_i hv
          exact (Memory.wfFrom_cons ..).2 ⟨hlo, ha, hv, hm.2.2.2⟩
      · exact (Memory.wfFrom_cons ..).2
          ⟨hm.1, hm.2.1, hm.2.2.1, Memory.wfFrom_writeByte a v hm.2.2.2 (by omega) ha⟩

theorem Memory.wf_writeByte {m : Memory} (a : Nat) (v : Byte) (hm : m.wf = true) (ha : a < Config.pktBytes) :
    (m.writeByte a v).wf = true :=
  Memory.wfFrom_writeByte a v hm (Nat.zero_le a) ha

theorem Memory.wf_writeWord {m : Memory} (k : Nat) (w : Word) (hm : m.wf = true) (hk : k < 47) :
    (m.writeWord k w).wf = true := by
  have h188 : Config.pktBytes = 188 := rfl
  unfold Memory.writeWord
  refine Memory.wf_writeByte _ _ (Memory.wf_writeByte _ _ (Memory.wf_writeByte _ _ (Memory.wf_writeByte _ _ hm ?_) ?_) ?_) ?_ <;>
    omega

/-- The bytes outside the word are left alone. -/
theorem Memory.readByte_writeWord_other (m : Memory) (k : Nat) (w : Word) (j : Nat) (h : j < 4 * k ∨ 4 * k + 3 < j) :
    (m.writeWord k w).readByte j = m.readByte j := by
  unfold Memory.writeWord
  rw [Memory.readByte_writeByte_other _ _ _ _ (by omega), Memory.readByte_writeByte_other _ _ _ _ (by omega),
    Memory.readByte_writeByte_other _ _ _ _ (by omega), Memory.readByte_writeByte_other _ _ _ _ (by omega)]

/-- The four bytes of the word, most significant first. -/
theorem Memory.readByte_writeWord {m : Memory} (k : Nat) (w : Word) (hm : m.wf = true) (hk : k < 47) :
    (m.writeWord k w).readByte (4 * k) = BitVec.ofNat 8 (bits w.toNat 31 24) ∧
    (m.writeWord k w).readByte (4 * k + 1) = BitVec.ofNat 8 (bits w.toNat 23 16) ∧
    (m.writeWord k w).readByte (4 * k + 2) = BitVec.ofNat 8 (bits w.toNat 15 8) ∧
    (m.writeWord k w).readByte (4 * k + 3) = BitVec.ofNat 8 (bits w.toNat 7 0) := by
  have h188 : Config.pktBytes = 188 := rfl
  have h0 := Memory.wf_writeByte (4 * k) (BitVec.ofNat 8 (bits w.toNat 31 24)) hm (by omega)
  have h1 := Memory.wf_writeByte (4 * k + 1) (BitVec.ofNat 8 (bits w.toNat 23 16)) h0 (by omega)
  have h2 := Memory.wf_writeByte (4 * k + 2) (BitVec.ofNat 8 (bits w.toNat 15 8)) h1 (by omega)
  unfold Memory.writeWord
  refine ⟨?_, ?_, ?_, Memory.readByte_writeByte_same _ _ h2⟩
  · rw [Memory.readByte_writeByte_other _ _ _ _ (by omega), Memory.readByte_writeByte_other _ _ _ _ (by omega),
      Memory.readByte_writeByte_other _ _ _ _ (by omega), Memory.readByte_writeByte_same _ _ hm]
  · rw [Memory.readByte_writeByte_other _ _ _ _ (by omega), Memory.readByte_writeByte_other _ _ _ _ (by omega),
      Memory.readByte_writeByte_same _ _ h0]
  · rw [Memory.readByte_writeByte_other _ _ _ _ (by omega), Memory.readByte_writeByte_same _ _ h1]

/-! ### Slices and big-endian numbers -/

@[simp] theorem Memory.slice_zero (m : Memory) (i : Nat) : m.slice i 0 = [] := rfl

@[simp] theorem Memory.slice_succ (m : Memory) (i n : Nat) :
    m.slice i (n + 1) = m.readByte i :: m.slice (i + 1) n := rfl

@[simp] theorem Memory.length_slice (m : Memory) : ∀ i n, (m.slice i n).length = n
  | _, 0 => rfl
  | i, n + 1 => by simp [Memory.length_slice m (i + 1) n]

/-- A slice is the list of the bytes at its indices. -/
theorem Memory.slice_eq_map (m : Memory) : ∀ i n, m.slice i n = (List.range n).map fun j => m.readByte (i + j)
  | _, 0 => rfl
  | i, n + 1 => by
    rw [Memory.slice_succ, Memory.slice_eq_map m (i + 1) n, List.range_succ_eq_map]
    simp [Function.comp_def, Nat.add_assoc, Nat.add_comm 1]

/-- A slice splits at any point. -/
theorem Memory.slice_add (m : Memory) : ∀ i a b, m.slice i (a + b) = m.slice i a ++ m.slice (i + a) b
  | i, 0, b => by simp
  | i, a + 1, b => by
    rw [Nat.add_right_comm, Memory.slice_succ, Memory.slice_add m (i + 1) a b, Memory.slice_succ]
    simp [Nat.add_assoc, Nat.add_comm 1]

/-- Two buffers that agree on a window have the same slice there. -/
theorem Memory.slice_congr {m m' : Memory} : ∀ {i n : Nat},
    (∀ j, i ≤ j → j < i + n → m.readByte j = m'.readByte j) → m.slice i n = m'.slice i n
  | _, 0, _ => rfl
  | i, n + 1, h => by
    rw [Memory.slice_succ, Memory.slice_succ, h i (by omega) (by omega),
      Memory.slice_congr fun j h1 h2 => h j (by omega) (by omega)]

theorem bigEndian_one (a : Byte) : bigEndian [a] = a.toNat := by simp [bigEndian]

theorem bigEndian_two (a b : Byte) : bigEndian [a, b] = a.toNat * 2 ^ 8 + b.toNat := by simp [bigEndian]

theorem bigEndian_four (a b c d : Byte) :
    bigEndian [a, b, c, d] = ((a.toNat * 2 ^ 8 + b.toNat) * 2 ^ 8 + c.toNat) * 2 ^ 8 + d.toNat := by
  simp [bigEndian]

end Sys2Proof.Machine
end

