-- ==== Sys2Proof/Laws/Ops.lean ====
section
/-! SUPPORT. What each shared operation of the commands can do, said once; the meanings' lemmas cite these and do not
unfold the operations. -/

namespace Sys2Proof.Machine

/-! ### Bit fields -/

theorem bits_eq (v hi lo : Nat) : bits v hi lo = v / 2 ^ lo % 2 ^ (hi - lo + 1) := rfl

theorem bit_eq (v i : Nat) : bit v i = v / 2 ^ i % 2 := by simp [bit, bits]

theorem bit_lt_two (v i : Nat) : bit v i < 2 := by rw [bit_eq]; omega

/-- A single bit of a number is the bit of the vector. -/
theorem bit_toNat {n : Nat} (x : BitVec n) (i : Nat) : bit x.toNat i = (x.getLsbD i).toNat := by
  rw [bit_eq, ← BitVec.testBit_toNat, Nat.testBit_eq_decide_div_mod_eq]
  have h : x.toNat / 2 ^ i % 2 < 2 := Nat.mod_lt _ (by omega)
  by_cases h1 : x.toNat / 2 ^ i % 2 = 1
  · simp [h1]
  · simp [h1]; omega

/-! ### Reading PB -/

/-- Inside the packet a read hands its bytes on. -/
theorem readBytes_of_le {s : State} {i n : Nat} (h : i + n ≤ 188) (k : List Byte → Outcome) :
    readBytes s i n k = k (s.pb.slice i n) := if_pos h

/-- Outside it the machine faults. -/
theorem readBytes_of_gt {s : State} {i n : Nat} (h : 188 < i + n) (k : List Byte → Outcome) :
    readBytes s i n k = .fault .pbIndexOutOfRange := if_neg (Nat.not_le.2 h)

/-- What a read can do: it was inside the packet and its continuation answered. -/
theorem readBytes_next {s t : State} {i n : Nat} {k : List Byte → Outcome} (h : readBytes s i n k = .next t) :
    i + n ≤ 188 ∧ k (s.pb.slice i n) = .next t := by
  by_cases hb : i + n ≤ 188
  · rw [readBytes_of_le hb] at h; exact ⟨hb, h⟩
  · rw [readBytes_of_gt (Nat.lt_of_not_le hb)] at h; cases h

theorem memRead_of_le {s : State} {i n : Nat} (h : i + n ≤ 188) (k : Nat → Outcome) :
    memRead s i n k = k (s.pb.memRead i n) := readBytes_of_le h _

theorem memRead_one {s : State} {i : Nat} (h : i + 1 ≤ 188) (k : Nat → Outcome) :
    memRead s i 1 k = k (s.pb.readByte i).toNat := by
  rw [memRead_of_le h, Memory.memRead, Memory.slice_succ, Memory.slice_zero, bigEndian_one]

/-- The header word is always readable. -/
theorem readHeader_eq (s : State) (k : Nat → Outcome) : readHeader s k = k (s.pb.memRead 0 4) :=
  memRead_of_le (by omega) k

/-- The header word as the number its four bytes spell. -/
theorem memRead_header (m : Memory) : m.memRead 0 4 =
    (((m.readByte 0).toNat * 2 ^ 8 + (m.readByte 1).toNat) * 2 ^ 8 + (m.readByte 2).toNat) * 2 ^ 8 +
      (m.readByte 3).toNat := by
  simp only [Memory.memRead, Memory.slice_succ, Memory.slice_zero, bigEndian_four]

/-! ### How a command ends -/

/-- The outcome is one of the three ends of a command: `complete`, `complete_keep` or `raise E` (00_scope.md R9). -/
def Ends (s : State) (o : Outcome) : Prop :=
  (∃ r p, r < 2 ^ 64 ∧ o = complete s r p) ∨ (∃ p, o = completeKeep s p) ∨ (∃ e, e ≠ .none ∧ o = raise s e)

theorem ends_complete (s : State) {r : Nat} (p : Bool) (h : r < 2 ^ 64) : Ends s (complete s r p) :=
  .inl ⟨r, p, h, rfl⟩

theorem ends_completeBit (s : State) (v i : Nat) : Ends s (completeBit s (bit v i)) :=
  .inl ⟨bit v i, _, (bit_lt_two v i).trans (by omega), rfl⟩

theorem ends_raise (s : State) {e : ErrCode} (h : e ≠ .none) : Ends s (raise s e) := .inr (.inr ⟨e, h, rfl⟩)

theorem ends_readBytes {s : State} {i n : Nat} {k : List Byte → Outcome} (h : i + n ≤ 188)
    (hk : ∀ bs, Ends s (k bs)) : Ends s (readBytes s i n k) := by
  rw [readBytes_of_le h]; exact hk _

theorem bigEndian_lt : ∀ (bs : List Byte), bigEndian bs < 2 ^ (8 * bs.length) := by
  intro bs
  suffices H : ∀ (l : List Byte) (a n : Nat), a < 2 ^ (8 * n) →
      l.foldl (fun acc b => acc * 2 ^ 8 + b.toNat) a < 2 ^ (8 * (n + l.length)) by
    simpa [bigEndian] using H bs 0 0 (by simp)
  intro l
  induction l with
  | nil => intro a n h; simpa using h
  | cons b l ih =>
    intro a n h
    have hb := b.isLt
    have h2 : a * 2 ^ 8 + b.toNat < 2 ^ (8 * (n + 1)) := by
      have : 2 ^ (8 * (n + 1)) = 2 ^ (8 * n) * 2 ^ 8 := by rw [← Nat.pow_add]; congr 1
      omega
    have := ih _ (n + 1) h2
    simpa [Nat.add_assoc, Nat.add_comm 1] using this

theorem ends_memRead {s : State} {i n : Nat} {k : Nat → Outcome} (h : i + n ≤ 188)
    (hk : ∀ v, v < 2 ^ (8 * n) → Ends s (k v)) : Ends s (memRead s i n k) := by
  rw [memRead_of_le h]
  exact hk _ (by simpa [Memory.memRead] using bigEndian_lt (s.pb.slice i n))

/-! ### The checks of the adaptation-field commands -/

/-- What AF_CHECK does: NOAF, OOB, or the rest of the command on L ≤ 183 (42_adaptation.md R131). -/
theorem afCheck_cases (s : State) (k : Nat → Outcome) :
    (hasAf (s.pb.memRead 0 4) = 0 ∧ afCheck s k = raise s .noaf) ∨
    (hasAf (s.pb.memRead 0 4) = 1 ∧ 183 < (s.pb.readByte 4).toNat ∧ afCheck s k = raise s .oob) ∨
    (hasAf (s.pb.memRead 0 4) = 1 ∧ (s.pb.readByte 4).toNat ≤ 183 ∧ afCheck s k = k (s.pb.readByte 4).toNat) := by
  have h2 := bit_lt_two (s.pb.memRead 0 4) 5
  have hc : Config.maxAfLen = 183 := rfl
  rw [afCheck, readHeader_eq, memRead_one (by omega), hc]
  by_cases h0 : hasAf (s.pb.memRead 0 4) = 0
  · exact .inl ⟨h0, if_pos h0⟩
  · have h1 : hasAf (s.pb.memRead 0 4) = 1 := by unfold hasAf at h0 ⊢; omega
    rw [if_neg h0]
    by_cases hl : (s.pb.readByte 4).toNat ≤ 183
    · exact .inr (.inr ⟨h1, hl, if_neg (Nat.not_lt.2 hl)⟩)
    · exact .inr (.inl ⟨h1, Nat.lt_of_not_le hl, if_pos (Nat.lt_of_not_le hl)⟩)

/-- The rest of a flags command is its continuation on PB[5]. -/
theorem afFlags_eq (s : State) (k : Nat → Outcome) :
    afFlags s k = afCheck s fun _ => k (s.pb.readByte 5).toNat := by
  simp only [afFlags, memRead_one (s := s) (i := 5) (by omega)]

theorem ends_afCheck {s : State} {k : Nat → Outcome} (hk : ∀ v, v ≤ 183 → Ends s (k v)) : Ends s (afCheck s k) := by
  rcases afCheck_cases s k with ⟨_, h⟩ | ⟨_, _, h⟩ | ⟨_, hl, h⟩ <;> rw [h]
  · exact ends_raise s (by decide)
  · exact ends_raise s (by decide)
  · exact hk _ hl

theorem ends_afFlags {s : State} {k : Nat → Outcome} (hk : ∀ v, v < 2 ^ 8 → Ends s (k v)) : Ends s (afFlags s k) := by
  rw [afFlags_eq]
  exact ends_afCheck fun _ _ => hk _ (s.pb.readByte 5).isLt

/-- The private data's length byte stands at index 19 at most. -/
theorem offTpd_le (f : Nat) : offTpd f ≤ 19 := by
  have h4 := bit_lt_two f 4
  have h3 := bit_lt_two f 3
  have h2 := bit_lt_two f 2
  simp only [offTpd, offSpl, offOpcr, offPcr, fPcr, fOpcr, fSpl]; omega

theorem offSpl_le (f : Nat) : offSpl f ≤ 18 := by
  have h4 := bit_lt_two f 4
  have h3 := bit_lt_two f 3
  simp only [offSpl, offOpcr, offPcr, fPcr, fOpcr]; omega

theorem offOpcr_le (f : Nat) : offOpcr f ≤ 12 := by
  have h4 := bit_lt_two f 4
  simp only [offOpcr, offPcr, fPcr]; omega

/-- What TPD_CHECK does: OOB, or the rest of the command with the length where the flag is set (42_adaptation.md
R133). -/
theorem tpdCheck_cases (s : State) (f : Nat) (k : Option Nat → Outcome) :
    (fTpd f = 0 ∧ tpdCheck s f k = k none) ∨
    (fTpd f = 1 ∧ 188 < offTpd f + 1 + (s.pb.readByte (offTpd f)).toNat ∧ tpdCheck s f k = raise s .oob) ∨
    (fTpd f = 1 ∧ offTpd f + 1 + (s.pb.readByte (offTpd f)).toNat ≤ 188 ∧
      tpdCheck s f k = k (some (s.pb.readByte (offTpd f)).toNat)) := by
  have h2 := bit_lt_two f 1
  have ho := offTpd_le f
  have hc : Config.pktBytes = 188 := rfl
  rw [tpdCheck, memRead_one (by omega), hc]
  by_cases h1 : fTpd f = 1
  · rw [if_pos h1]
    by_cases hl : offTpd f + 1 + (s.pb.readByte (offTpd f)).toNat ≤ 188
    · exact .inr (.inr ⟨h1, hl, if_neg (Nat.not_lt.2 hl)⟩)
    · exact .inr (.inl ⟨h1, Nat.lt_of_not_le hl, if_pos (Nat.lt_of_not_le hl)⟩)
  · have h0 : fTpd f = 0 := by unfold fTpd at h1 ⊢; omega
    exact .inl ⟨h0, by rw [if_neg h1]⟩

theorem ends_tpdCheck {s : State} {f : Nat} {k : Option Nat → Outcome} (hn : Ends s (k none))
    (hk : ∀ v, v ≤ 187 → Ends s (k (some v))) : Ends s (tpdCheck s f k) := by
  rcases tpdCheck_cases s f k with ⟨_, h⟩ | ⟨_, _, h⟩ | ⟨_, hl, h⟩ <;> rw [h]
  · exact hn
  · exact ends_raise s (by decide)
  · exact hk _ (by omega)

/-- What the payload-window commands do: OOB, or the rest of the command on `start` and `has_pl` (42_adaptation.md
R151). -/
theorem payloadWindow_cases (s : State) (k : Nat → Nat → Outcome) :
    (hasAf (s.pb.memRead 0 4) = 0 ∧ payloadWindow s k = k 4 (hasPl (s.pb.memRead 0 4))) ∨
    (hasAf (s.pb.memRead 0 4) = 1 ∧ 183 < (s.pb.readByte 4).toNat ∧ payloadWindow s k = raise s .oob) ∨
    (hasAf (s.pb.memRead 0 4) = 1 ∧ (s.pb.readByte 4).toNat ≤ 183 ∧
      payloadWindow s k = k (4 + ((s.pb.readByte 4).toNat + 1)) (hasPl (s.pb.memRead 0 4))) := by
  have h2 := bit_lt_two (s.pb.memRead 0 4) 5
  have hc : Config.maxAfLen = 183 := rfl
  have hh : Config.hdrBytes = 4 := rfl
  rw [payloadWindow, readHeader_eq, memRead_one (by omega), hc, hh]
  by_cases h1 : hasAf (s.pb.memRead 0 4) = 1
  · rw [if_pos h1]
    by_cases hl : (s.pb.readByte 4).toNat ≤ 183
    · exact .inr (.inr ⟨h1, hl, if_neg (Nat.not_lt.2 hl)⟩)
    · exact .inr (.inl ⟨h1, Nat.lt_of_not_le hl, if_pos (Nat.lt_of_not_le hl)⟩)
  · have h0 : hasAf (s.pb.memRead 0 4) = 0 := by unfold hasAf at h1 ⊢; omega
    exact .inl ⟨h0, if_neg h1⟩

/-! ### Timestamps and CRC ranges -/

theorem decodePcr_eq {s : State} {o : Nat} (h : o + 6 ≤ 188) (k : Nat → Outcome) :
    decodePcr s o k = k (pcrValue (s.pb.memRead o 4) (s.pb.memRead (o + 4) 2)) := by
  rw [decodePcr, memRead_of_le (by omega), memRead_of_le (by omega)]

/-- A timestamp fits in 42 bits (43_pcr.md R160). -/
theorem pcrValue_le {high low : Nat} (h : high < 2 ^ 32) : pcrValue high low ≤ 2576980377811 := by
  have h1 := bit_lt_two low 15
  have h2 : bits low 8 0 < 512 := Nat.mod_lt _ (by decide)
  simp only [pcrValue]; omega

theorem crcCalc_eq {s : State} {start len : Nat} (h : start + len ≤ 188) (k : Word → Outcome) :
    crcCalc s start len k = k (if len < 4 then 0#32 else crcBytes (s.pb.slice start (len - 4))) := by
  unfold crcCalc
  split
  · rfl
  · rw [readBytes_of_le (by omega)]

end Sys2Proof.Machine
end

