-- ==== Sys2Proof/Laws/Header.lean ====
section
/-! SUPPORT. The fields of the header word in terms of the four header bytes (41_header.md R110). -/

namespace Sys2Proof.Machine

variable (m : Memory)

theorem hSync_header : hSync (m.memRead 0 4) = (m.readByte 0).toNat := by
  have h0 := (m.readByte 0).isLt
  have h1 := (m.readByte 1).isLt
  have h2 := (m.readByte 2).isLt
  have h3 := (m.readByte 3).isLt
  rw [memRead_header, hSync, bits_eq]; omega

/-- A bit of byte 1 is that bit of the header word, 16 places up. -/
theorem bit_header_byte1 {i : Nat} (h : i < 8) : bit (m.memRead 0 4) (16 + i) = bit (m.readByte 1).toNat i := by
  have h2 := (m.readByte 2).isLt
  have h3 := (m.readByte 3).isLt
  rw [memRead_header, bit_eq, bit_eq]
  interval_cases i <;> omega

/-- A bit of byte 3 is that bit of the header word. -/
theorem bit_header_byte3 {i : Nat} (h : i < 8) : bit (m.memRead 0 4) i = bit (m.readByte 3).toNat i := by
  rw [memRead_header, bit_eq, bit_eq]
  interval_cases i <;> omega

theorem hTei_header : hTei (m.memRead 0 4) = ((m.readByte 1).getLsbD 7).toNat := by
  rw [hTei, bit_header_byte1 m (i := 7) (by omega), bit_toNat]

theorem hPusi_header : hPusi (m.memRead 0 4) = ((m.readByte 1).getLsbD 6).toNat := by
  rw [hPusi, bit_header_byte1 m (i := 6) (by omega), bit_toNat]

theorem hTpri_header : hTpri (m.memRead 0 4) = ((m.readByte 1).getLsbD 5).toNat := by
  rw [hTpri, bit_header_byte1 m (i := 5) (by omega), bit_toNat]

theorem hPid_header : hPid (m.memRead 0 4) = (m.readByte 1).toNat % 32 * 256 + (m.readByte 2).toNat := by
  have h2 := (m.readByte 2).isLt
  have h3 := (m.readByte 3).isLt
  rw [memRead_header, hPid, bits_eq]; omega

theorem hTsc_header : hTsc (m.memRead 0 4) = (m.readByte 3).toNat / 64 := by
  have h3 := (m.readByte 3).isLt
  rw [memRead_header, hTsc, bits_eq]; omega

theorem hAfc_header : hAfc (m.memRead 0 4) = (m.readByte 3).toNat / 16 % 4 := by
  rw [memRead_header, hAfc, bits_eq]; omega

theorem hCc_header : hCc (m.memRead 0 4) = (m.readByte 3).toNat % 16 := by
  rw [memRead_header, hCc, bits_eq]; omega

theorem hasAf_header : hasAf (m.memRead 0 4) = ((m.readByte 3).getLsbD 5).toNat := by
  rw [hasAf, bit_header_byte3 m (by omega), bit_toNat]

theorem hasPl_header : hasPl (m.memRead 0 4) = ((m.readByte 3).getLsbD 4).toNat := by
  rw [hasPl, bit_header_byte3 m (by omega), bit_toNat]

/-- has_af and has_pl from the value of AFC (41_header.md R122). -/
theorem hasAf_eq_afc (h : Nat) : hasAf h = hAfc h / 2 := by
  rw [hasAf, bit_eq, hAfc, bits_eq]; omega

theorem hasPl_eq_afc (h : Nat) : hasPl h = hAfc h % 2 := by
  rw [hasPl, bit_eq, hAfc, bits_eq]; omega

end Sys2Proof.Machine
end

