-- ==== Sys2Proof/Laws/PerInstr.lean ====
section
/-! SUPPORT. A statement about every command as syntax, one lemma per command: the shape of its encoding
(30_encoding.md R71 to R73). -/

namespace Sys2Proof.Laws.EncodingShape

/-- The encoding of a well-formed command has the command's opcode in OPC and zero in RSV. -/
def Statement (i : Instr) : Prop :=
  WellFormed i = true → opcField (encode i) = opcode i ∧ rsvField (encode i) = 0

/-- The fields of the word of a format-CR command. -/
theorem range_shape {opc start len : Nat} (ho : opc < 256) (ha : start < 256) (hb : len < 256) :
    opcField (BitVec.ofNat 32 (opc * 2 ^ 24 + (start * 2 ^ 8 + len))) = opc ∧
    rsvField (BitVec.ofNat 32 (opc * 2 ^ 24 + (start * 2 ^ 8 + len))) = 0 := by
  simp only [opcField, rsvField, bits, BitVec.toNat_ofNat]
  omega

theorem nop : Statement .nop := fun _ => by decide
theorem hdr : Statement .hdr := fun _ => by decide
theorem sync : Statement .sync := fun _ => by decide
theorem tei : Statement .tei := fun _ => by decide
theorem pusi : Statement .pusi := fun _ => by decide
theorem tpri : Statement .tpri := fun _ => by decide
theorem pid : Statement .pid := fun _ => by decide
theorem tsc : Statement .tsc := fun _ => by decide
theorem afc : Statement .afc := fun _ => by decide
theorem cc : Statement .cc := fun _ => by decide
theorem hasaf : Statement .hasaf := fun _ => by decide
theorem haspl : Statement .haspl := fun _ => by decide
theorem aflen : Statement .aflen := fun _ => by decide
theorem afflags : Statement .afflags := fun _ => by decide
theorem disc : Statement .disc := fun _ => by decide
theorem rai : Statement .rai := fun _ => by decide
theorem espri : Statement .espri := fun _ => by decide
theorem haspcr : Statement .haspcr := fun _ => by decide
theorem hasopcr : Statement .hasopcr := fun _ => by decide
theorem hasspl : Statement .hasspl := fun _ => by decide
theorem hastpd : Statement .hastpd := fun _ => by decide
theorem hasext : Statement .hasext := fun _ => by decide
theorem pcr : Statement .pcr := fun _ => by decide
theorem opcr : Statement .opcr := fun _ => by decide
theorem splice : Statement .splice := fun _ => by decide
theorem tpdlen : Statement .tpdlen := fun _ => by decide
theorem offpcr : Statement .offpcr := fun _ => by decide
theorem offopcr : Statement .offopcr := fun _ => by decide
theorem offspl : Statement .offspl := fun _ => by decide
theorem offtpd : Statement .offtpd := fun _ => by decide
theorem offext : Statement .offext := fun _ => by decide
theorem ploff : Statement .ploff := fun _ => by decide
theorem pllen : Statement .pllen := fun _ => by decide
theorem nanos : Statement .nanos := fun _ => by decide

theorem crc32 (start len : Nat) : Statement (.crc32 start len) := by
  intro h
  simp only [WellFormed, fitsByte, Bool.and_eq_true, decide_eq_true_eq] at h
  exact range_shape (opc := 0x60) (by decide) h.1 h.2

theorem crcchk (start len : Nat) : Statement (.crcchk start len) := by
  intro h
  simp only [WellFormed, fitsByte, Bool.and_eq_true, decide_eq_true_eq] at h
  exact range_shape (opc := 0x61) (by decide) h.1 h.2

end Sys2Proof.Laws.EncodingShape
end

