-- ==== Sys2Proof/Laws/Run.lean ====
section
/-! SUPPORT. Runs of the machine: the first step and the rest, and two runs one after the other. -/

namespace Sys2Proof.Machine

theorem run_zero (s : State) : core.run 0 s = .next s := rfl

/-- A run of one step more, by its first step. -/
theorem run_succ {s t : State} (k : Nat) (h : step s = .next t) : core.run (k + 1) s = core.run k t := by
  have h' : core.step s = .next t := h
  simp only [Host.Core.run, h']

/-- A run that answers a state goes on from that state. -/
theorem run_add {b : Nat} {t : State} : ∀ {a : Nat} {s : State}, core.run a s = .next t →
    core.run (a + b) s = core.run b t
  | 0, s, h => by cases h; rw [Nat.zero_add]
  | a + 1, s, h => by
    cases hs : step s with
    | next u =>
      rw [run_succ a hs] at h
      rw [Nat.add_right_comm, run_succ _ hs]
      exact run_add h
    | fault r => have h' : core.step s = .fault r := hs; simp only [Host.Core.run, h'] at h; cases h
    | refused r => have h' : core.step s = .refused r := hs; simp only [Host.Core.run, h'] at h; cases h

end Sys2Proof.Machine
end

