-- ==== Sys2Proof/Tests/Slice0.lean ====
section
/-! SUPPORT. Tests of the model. Every expected value is a row of spec/95_test_vectors.md or of a rule named beside it,
not the model's own answer. The last part gives, for each statement with hypotheses, states and operands that meet
them, at the ends of their ranges. -/

namespace Sys2Proof.Tests

open Sys2Proof Sys2Proof.Machine Sys2Proof.Safety

/-! ### Helpers -/

/-- `m` with the bytes `bs` stored from index `i` on. -/
def bytesAt (m : Memory) : Nat → List Byte → Memory
  | _, [] => m
  | i, b :: bs => bytesAt (m.writeByte i b) (i + 1) bs

/-- The reset state with PB starting with the bytes `bs`. -/
def packet (bs : List Byte) : State := { State.reset with pb := bytesAt [] 0 bs }

/-- The same with its own `i`-th byte on. -/
def packetAt (i : Nat) (bs : List Byte) : State := { State.reset with pb := bytesAt [] i bs }

/-- The reset state with RES = t. -/
def withRes (t : Nat) : State := { State.reset with res := BitVec.ofNat 64 t }

/-- RES, P and ERR of a next state. -/
def result : Outcome → Option (Nat × Bool × ErrCode)
  | .next s => some (s.res.toNat, s.p, s.err)
  | .fault _ => none
  | .refused _ => none

/-- RES, P and ERR after one step that runs the command word `w` as the next command of `s`. -/
def ran (s : State) (w : Nat) : Option (Nat × Bool × ErrCode) := result (step (s.withFetchWord 32 w))

/-- The outcome is a next state, and `p` holds of it. -/
def nextHas (o : Outcome) (p : State → Bool) : Bool :=
  match o with
  | .next s => p s
  | .fault _ => false
  | .refused _ => false

theorem nextHas_iff {o : Outcome} {p : State → Bool} (h : nextHas o p = true) : ∃ t, o = .next t ∧ p t = true := by
  cases o with
  | next t => exact ⟨t, rfl, h⟩
  | fault _ => cases h
  | refused _ => cases h

/-- The word a host read returns. -/
def readAt (s : State) (off : Nat) : Nat := (hostWord s (BitVec.ofNat 9 off)).toNat

/-- The state after a host write. -/
def wrote (s : State) (off w : Nat) : State := s.hostWrite (BitVec.ofNat 9 off) (BitVec.ofNat 32 w)

/-! ### Well-formedness: operands of format CR fit one byte (30_encoding.md R71, R73) -/

theorem test_wf_refuses_crc32_start_256 : WellFormed (.crc32 256 0) = false := by decide
theorem test_wf_refuses_crc32_len_256 : WellFormed (.crc32 0 256) = false := by decide
theorem test_wf_refuses_crcchk_start_256 : WellFormed (.crcchk 256 0) = false := by decide
theorem test_wf_refuses_crcchk_len_256 : WellFormed (.crcchk 0 256) = false := by decide
theorem test_wf_admits_out_of_range_window : WellFormed (.crc32 255 255) = true := by decide

/-! ### Decoding: the words `OPC << 24` of 30_encoding.md R75, and format CR of R79 -/

theorem test_decode_nop : decode 0x00000000#32 = .command .nop := by decide

theorem test_decode_header :
    [0x10000000#32, 0x11000000#32, 0x12000000#32, 0x13000000#32, 0x14000000#32, 0x15000000#32, 0x16000000#32,
      0x17000000#32, 0x18000000#32, 0x19000000#32, 0x1A000000#32].map decode =
    [.command .hdr, .command .sync, .command .tei, .command .pusi, .command .tpri, .command .pid, .command .tsc,
      .command .afc, .command .cc, .command .hasaf, .command .haspl] := by decide

theorem test_decode_adaptation_flags :
    [0x20000000#32, 0x21000000#32, 0x22000000#32, 0x23000000#32, 0x24000000#32, 0x25000000#32, 0x26000000#32,
      0x27000000#32, 0x28000000#32, 0x29000000#32].map decode =
    [.command .aflen, .command .afflags, .command .disc, .command .rai, .command .espri, .command .haspcr,
      .command .hasopcr, .command .hasspl, .command .hastpd, .command .hasext] := by decide

theorem test_decode_adaptation_fields :
    [0x32000000#32, 0x33000000#32, 0x38000000#32, 0x39000000#32, 0x3A000000#32, 0x3B000000#32, 0x3C000000#32,
      0x40000000#32, 0x41000000#32].map decode =
    [.command .splice, .command .tpdlen, .command .offpcr, .command .offopcr, .command .offspl, .command .offtpd,
      .command .offext, .command .ploff, .command .pllen] := by decide

theorem test_decode_timestamps :
    [0x30000000#32, 0x31000000#32, 0x50000000#32].map decode = [.command .pcr, .command .opcr, .command .nanos] := by
  decide

/-- "`CRC32 172, 16` assembles to 0x6000AC10" (R79): A = 172 = 0xAC in bits 15:8, B = 16 = 0x10 in bits 7:0. -/
theorem test_decode_crc32 : decode 0x6000AC10#32 = .command (.crc32 172 16) := by decide
theorem test_decode_crcchk : decode 0x6100AC10#32 = .command (.crcchk 172 16) := by decide
theorem test_encode_crc32 : encode (.crc32 172 16) = 0x6000AC10#32 := by decide

/-- The illegal words of L2.1, each with the check of R76 that rejects it. -/
theorem test_decode_reserved_opcodes :
    [0x01000000#32, 0x0F000000#32, 0x1B000000#32, 0x2A000000#32, 0x34000000#32, 0x3D000000#32, 0x42000000#32,
      0x51000000#32, 0x62000000#32, 0xFF000000#32].map decode = List.replicate 10 (.illegal .reservedOpcode) := by decide

theorem test_decode_reserved_fields :
    [0x00010000#32, 0x10000001#32, 0x30000100#32, 0x6001AC10#32].map decode =
    [.illegal .operandBitsNotZero, .illegal .operandBitsNotZero, .illegal .operandBitsNotZero,
      .illegal .reservedFieldNotZero] := by decide

theorem test_table_word : decodeTableWord 32 0x6100AC10 = some (.crcchk 172 16) ∧ decodeTableWord 32 0x62000000 = none := by
  decide

/-! ### Control (L2.1), from RES = 0x1234 -/

theorem test_nop_keeps_res : ran (withRes 0x1234) 0x00000000 = some (0x1234, false, .none) := by decide
theorem test_illegal_word_raises_ill :
    [0x00010000, 0x01000000, 0xFF000000, 0x10000001, 0x6001AC10].map (ran (withRes 0x1234)) =
      List.replicate 5 (some (0, false, .ill)) := by decide

/-! ### Header decoder (L2.2) -/

/-- The row 47 E1 FF F7 of L2.2, HDR to HASPL. -/
theorem test_header_row_47E1FFF7 :
    [0x10000000, 0x11000000, 0x12000000, 0x13000000, 0x14000000, 0x15000000, 0x16000000, 0x17000000, 0x18000000,
      0x19000000, 0x1A000000].map (ran (packet [0x47, 0xE1, 0xFF, 0xF7])) =
    [some (0x47E1FFF7, false, .none), some (0x47, false, .none), some (1, true, .none), some (1, true, .none),
      some (1, true, .none), some (0x1FF, false, .none), some (3, false, .none), some (3, false, .none),
      some (7, false, .none), some (1, true, .none), some (1, true, .none)] := by decide

/-- The row 47 A0 00 C5 of L2.2: PID 0 under TEI and TPRI, AFC 0 without an error. -/
theorem test_header_row_47A000C5 :
    [0x10000000, 0x11000000, 0x12000000, 0x13000000, 0x14000000, 0x15000000, 0x16000000, 0x17000000, 0x18000000,
      0x19000000, 0x1A000000].map (ran (packet [0x47, 0xA0, 0x00, 0xC5])) =
    [some (0x47A000C5, false, .none), some (0x47, false, .none), some (1, true, .none), some (0, false, .none),
      some (1, true, .none), some (0, false, .none), some (3, false, .none), some (0, false, .none),
      some (5, false, .none), some (0, false, .none), some (0, false, .none)] := by decide

/-! ### Adaptation field (L1.1, L2.3 to L2.6) -/

/-- A packet with AFC byte `c`, adaptation_field_length `l` and then the bytes `bs`. -/
def af (c l : Byte) (bs : List Byte) : State := packetAt 3 (c :: l :: bs)

theorem test_aflen :
    ran (af 0x20 0xB7 [0x00]) 0x20000000 = some (183, false, .none) ∧
      ran (af 0x20 0xB8 [0x00]) 0x20000000 = some (0, false, .oob) ∧
      ran (af 0x10 0x07 [0x10]) 0x20000000 = some (0, false, .noaf) := by decide

theorem test_noaf_before_oob : ran (af 0x10 0xFF []) 0x30000000 = some (0, false, .noaf) := by decide

theorem test_afflags : ran (af 0x30 0xB7 [0xA5]) 0x21000000 = some (0xA5, false, .none) ∧
    ran (af 0x30 0x00 [0x10]) 0x21000000 = some (0x10, false, .none) := by decide

/-- F = 0xA5 of L2.3, DISC to HASEXT. -/
theorem test_flags_A5 :
    [0x22000000, 0x23000000, 0x24000000, 0x25000000, 0x26000000, 0x27000000, 0x28000000, 0x29000000].map
      (ran (af 0x30 0x01 [0xA5])) =
    [some (1, true, .none), some (0, false, .none), some (1, true, .none), some (0, false, .none),
      some (0, false, .none), some (1, true, .none), some (0, false, .none), some (1, true, .none)] := by decide

/-- F = 0x5A of L2.3, DISC to HASEXT. -/
theorem test_flags_5A :
    [0x22000000, 0x23000000, 0x24000000, 0x25000000, 0x26000000, 0x27000000, 0x28000000, 0x29000000].map
      (ran (af 0x30 0x01 [0x5A])) =
    [some (0, false, .none), some (1, true, .none), some (0, false, .none), some (1, true, .none),
      some (1, true, .none), some (0, false, .none), some (1, true, .none), some (0, false, .none)] := by decide

/-- Row 0x16 of L2.4 (PCR, splice and private data of 2 bytes at 13), OFFPCR to OFFEXT. -/
theorem test_offsets_row_16 :
    [0x38000000, 0x39000000, 0x3A000000, 0x3B000000, 0x3C000000].map
      (ran { State.reset with pb := bytesAt (af 0x30 60 [0x16]).pb 13 [2] }) =
    [some (6, true, .none), some (12, false, .none), some (12, true, .none), some (13, true, .none),
      some (16, false, .none)] := by decide

/-- The last row of L2.4 with the extension flag set (F = 0x1F), OFFPCR to OFFEXT. -/
theorem test_offsets_row_1F :
    [0x38000000, 0x39000000, 0x3A000000, 0x3B000000, 0x3C000000].map
      (ran { State.reset with pb := bytesAt (af 0x30 60 [0x1F]).pb 19 [2] }) =
    [some (6, true, .none), some (12, true, .none), some (18, true, .none), some (19, true, .none),
      some (22, true, .none)] := by decide

theorem test_tpdlen : ran (af 0x30 100 [0x02, 181]) 0x33000000 = some (181, true, .none) ∧
    ran (af 0x30 100 [0x02, 182]) 0x33000000 = some (0, false, .oob) ∧
    ran (af 0x30 100 [0x00, 200]) 0x33000000 = some (0, false, .none) := by decide

theorem test_offext_at_the_end : ran (af 0x30 100 [0x02, 181]) 0x3C000000 = some (188, false, .none) ∧
    ran (af 0x30 100 [0x02, 182]) 0x3C000000 = some (0, false, .oob) := by decide

theorem test_splice : ran (af 0x20 183 [0x04, 0x05]) 0x32000000 = some (5, true, .none) ∧
    ran (af 0x20 183 [0x00, 0x07]) 0x32000000 = some (0, false, .none) := by decide

theorem test_splice_after_pcr_and_opcr :
    ran { State.reset with pb := bytesAt (af 0x20 183 [0x1C]).pb 18 [0x80] } 0x32000000 = some (128, true, .none) := by
  decide

theorem test_ploff : ran (af 0x10 184 []) 0x40000000 = some (4, true, .none) ∧
    ran (af 0x20 183 []) 0x40000000 = some (188, false, .none) ∧
    ran (af 0x30 184 []) 0x40000000 = some (0, false, .oob) := by decide

/-- With AFC = 3 the length is 183 - L (90_conflicts.md C1, L1.7). -/
theorem test_pllen : ran (af 0x30 7 []) 0x41000000 = some (176, true, .none) ∧
    ran (af 0x30 183 []) 0x41000000 = some (0, true, .none) ∧
    ran (af 0x00 184 []) 0x41000000 = some (184, false, .none) := by decide

/-! ### Timestamps (L2.7, L2.8) -/

theorem test_pcr : ran (af 0x20 183 [0x10, 0x91, 0xA2, 0xB3, 0xC4, 0xFE, 0xAB]) 0x30000000 =
    some (1466015503671, true, .none) := by decide
theorem test_pcr_reserved_bits_ignored : ran (af 0x20 183 [0x10, 0x00, 0x00, 0x00, 0x00, 0x7F, 0x2C]) 0x30000000 =
    some (300, true, .none) := by decide

/-- The rows F = 0x10 and F = 0x08 of the gating table of L2.7. -/
theorem test_opcr_gated_on_pcr_flag :
    ran (af 0x30 13 [0x10, 0, 0, 0, 0, 0x80, 0x7E, 0, 0, 0, 1, 0x7E, 0]) 0x31000000 = some (600, true, .none) ∧
      ran (af 0x30 13 [0x08, 0, 0, 0, 0, 0x80, 0x7E, 0, 0, 0, 1, 0x7E, 0]) 0x31000000 = some (0, false, .none) := by
  decide

theorem test_nanos : [1, 26, 27, 2576980377811, 498062089990157893].map (fun t => ran (withRes t) 0x50000000) =
    [some (37, false, .none), some (962, false, .none), some (1000, false, .none), some (95443717696703, false, .none),
      some (18446744073709551592, false, .none)] := by decide
theorem test_nanos_overflow : ran (withRes 498062089990157894) 0x50000000 = some (0, false, .ovf) ∧
    ran (withRes 18446744073709551615) 0x50000000 = some (0, false, .ovf) := by decide

/-! ### CRC (L1.4, L1.8, L2.9) -/

theorem test_crc_byte : crcByte 0x00000000#32 0x01#8 = 0x04C11DB7#32 ∧ crcByte 0x00000000#32 0x80#8 = 0x690CE0EE#32 ∧
    crcByte 0xFFFFFFFF#32 0x01#8 = 0x4AC9A203#32 := by decide

/-- The published check value of this CRC over "123456789" (93_implementation_defined.md G2). -/
theorem test_crc32_check_value :
    ran (packet [0x31, 0x32, 0x33, 0x34, 0x35, 0x36, 0x37, 0x38, 0x39, 0, 0, 0, 0]) 0x6000000D =
      some (0x0376E6E7, false, .none) := by decide +kernel
theorem test_crc32_short_and_out_of_bounds :
    ran (packet [0]) 0x60000003 = some (0, false, .none) ∧ ran (packet [0]) 0x60000004 = some (0xFFFFFFFF, false, .none) ∧
      ran (packet [0]) 0x6000FFFF = some (0, false, .oob) := by decide

/-- The one-program PAT section of L1.4 at PB[172..187]. -/
def patSection : List Byte :=
  [0x00, 0xB0, 0x0D, 0x00, 0x01, 0xC1, 0x00, 0x00, 0x00, 0x01, 0xF0, 0x00, 0x2A, 0xB1, 0x04, 0xB2]

theorem test_crcchk_of_the_pat_section : ran (packetAt 172 patSection) 0x6100AC10 = some (0x2AB104B2, true, .none) := by
  decide +kernel
theorem test_crcchk_mismatch_is_advisory :
    ran { State.reset with pb := (packetAt 172 patSection).pb.writeByte 187 0xB3 } 0x6100AC10 =
        some (0x2AB104B2, false, .none) ∧
      ran (packet []) 0x61000003 = some (0, false, .none) ∧ ran (packet []) 0x6100B409 = some (0, false, .oob) := by
  decide +kernel

/-! ### Host interface and state (L2.10) -/

theorem test_reset_reads : [0x000, 0x004, 0x008, 0x00C, 0x100, 0x1B8, 0x010, 0x0FC, 0x1BC, 0x1FC].map (readAt State.reset) =
    [0, 0, 0, 0, 0xFFFFFFFF, 0xFFFFFFFF, 0, 0, 0, 0] := by decide

theorem test_pb_write_then_read_ignores_low_address_bits :
    readAt (wrote State.reset 0x100 0x47401011) 0x103 = 0x47401011 ∧
      ran (wrote State.reset 0x100 0x47401011) 0x10000000 = some (0x47401011, false, .none) := by decide

theorem test_read_only_and_reserved_offsets_ignore_writes :
    wrote State.reset 0x008 0x12345678 = State.reset ∧ wrote State.reset 0x1BC 0x12345678 = State.reset ∧
      wrote State.reset 0x004 0xFFFFFFFF = State.reset := by decide

theorem test_busy_then_dropped_command :
    readAt (wrote State.reset 0x000 0x10000000) 0x004 = 0x00000001 ∧
      readAt (wrote (wrote State.reset 0x000 0x10000000) 0x000 0x11000000) 0x004 = 0x00000101 ∧
      (wrote (wrote State.reset 0x000 0x10000000) 0x000 0x11000000).cmd = 0x10000000#32 ∧
      readAt (wrote (wrote (wrote State.reset 0x000 0x10000000) 0x000 0x11000000) 0x004 0x00000100) 0x004 =
        0x00000001 := by decide

/-- Step 8 of P3, runs (ii) and (iii): a PB write while BUSY = 1 is dropped and sets PBLOCK. -/
theorem test_dropped_pb_write :
    (wrote (wrote State.reset 0x000 0x600000BC) 0x100 0x47000030).pb = [] ∧
      readAt (wrote (wrote State.reset 0x000 0x600000BC) 0x100 0x47000030) 0x004 = 0x00000201 := by decide

theorem test_reset_turn : step { (withRes 7).accept 0x10000000#32 with agenda := [.reset] } = .next State.reset := by rfl

/-- Codes of ERR (60_exceptions.md R201). -/
theorem test_err_codes : [ErrCode.none, .ill, .noaf, .oob, .ovf].map ErrCode.code = [0, 1, 2, 3, 4] := by decide

/-! ### Witnesses: what meets the hypotheses of the statements -/

/-- The reset state with `t` next on the agenda, the engine's turn after it. -/
def turn (t : Turn) : State := { State.reset with agenda := [t, .engine] }

/-- The same while a command is pending: `w` was accepted before. -/
def busyTurn (w : Word) (t : Turn) : State := { State.reset.accept w with agenda := [t, .engine] }

theorem witness_EncodedCommandDecodesToItself : WellFormed .nop = true ∧ WellFormed (.crc32 0 0) = true ∧
    WellFormed (.crc32 255 255) = true ∧ WellFormed (.crcchk 0 255) = true ∧ WellFormed (.crcchk 255 0) = true := by
  decide

theorem witness_DecodedWordIsItsEncoding : decode 0x00000000#32 = .command .nop ∧
    decode 0x50000000#32 = .command .nanos ∧ decode 0x60000000#32 = .command (.crc32 0 0) ∧
    decode 0x6100FFFF#32 = .command (.crcchk 255 255) := by decide

/-- Each reserved range at both ends. -/
theorem witness_DecoderFollowsTheOpcodeMap_reserved :
    ∀ o ∈ [0x01, 0x0F, 0x1B, 0x1F, 0x2A, 0x2F, 0x34, 0x37, 0x3D, 0x3F, 0x42, 0x4F, 0x51, 0x5F, 0x62, 0xFF],
      reservedOpc o ∧ opcOf (BitVec.ofNat 32 (o * 2 ^ 24)) = o := by
  unfold reservedOpc; decide

theorem witness_DecoderFollowsTheOpcodeMap_rows :
    (0x00, Instr.nop) ∈ c0Map ∧ opcOf 0x00000000#32 = 0x00 ∧ opcOf 0x00FFFFFF#32 = 0x00 ∧
      (0x50, Instr.nanos) ∈ c0Map ∧ opcOf 0x50000000#32 = 0x50 ∧ opcOf 0x50000001#32 = 0x50 ∧
      crMap.map Prod.fst = [0x60, 0x61] ∧ opcOf 0x6000FFFF#32 = 0x60 ∧ opcOf 0x61010000#32 = 0x61 := by decide

/-- Both forms of the engine's turn: on the agenda, and after it. -/
theorem witness_StepRunsThePendingCommand :
    (busyTurn 0x6100AC10#32 .engine).pend = some 0x6100AC10#32 ∧ decode 0x6100AC10#32 = .command (.crcchk 172 16) ∧
      EngineTurnIs (busyTurn 0x6100AC10#32 .engine) [.engine] ∧
      (State.reset.accept 0x00000000#32).pend = some 0x00000000#32 ∧ decode 0x00000000#32 = .command .nop ∧
      EngineTurnIs (State.reset.accept 0x00000000#32) [] := by
  unfold EngineTurnIs; decide

/-- Each kind of illegal word: a reserved OPC, operand bits under format C0 (the lowest, and all of them), RSV under
format CR. -/
theorem witness_IllegalWordRaisesIll :
    (∀ w ∈ [0x01000000#32, 0x00FFFFFF#32, 0x61FF0000#32],
      (busyTurn w .engine).pend = some w ∧ EngineTurnIs (busyTurn w .engine) [.engine]) ∧
      illegalWord 0x01000000#32 ∧ illegalWord 0xFF000000#32 ∧ illegalWord 0x00000001#32 ∧
      illegalWord 0x00FFFFFF#32 ∧ illegalWord 0x60010000#32 ∧ illegalWord 0x61FF0000#32 := by
  refine ⟨fun w _ => ⟨rfl, .inl rfl⟩, ?_⟩
  simp [illegalWord, reservedOpc, opcOf]

theorem witness_ReservedEncodingsRaiseIll :
    reservedOpc (opcOf 0x62000000#32) ∧
      ((0x10, Instr.hdr) ∈ c0Map ∧ opcOf 0x10000001#32 = 0x10 ∧ (0x10000001#32).toNat % 2 ^ 24 ≠ 0) ∧
      (∃ row ∈ crMap, opcOf 0x61010000#32 = row.1 ∧ (0x61010000#32).toNat / 2 ^ 16 % 2 ^ 8 ≠ 0) ∧
      Instr.hdr ≠ .nop ∧ Instr.hdr ≠ .nanos :=
  ⟨by unfold reservedOpc; decide, by decide, ⟨(0x61, .crcchk), .tail _ (.head _), by decide, by decide⟩, by decide,
    by decide⟩

theorem witness_EngineIsIdleWhenNothingIsPending : State.reset.pend = none ∧ EngineTurnIs State.reset [] ∧
    (turn .engine).pend = none ∧ EngineTurnIs (turn .engine) [.engine] := by
  unfold EngineTurnIs; decide

theorem witness_CommandEndsPreciselyInOneWay :
    (State.reset.accept 0x01000000#32).pend = some 0x01000000#32 ∧ illegalWord 0x01000000#32 ∧
      (State.reset.accept 0x61FF0000#32).pend = some 0x61FF0000#32 ∧ illegalWord 0x61FF0000#32 := by
  refine ⟨rfl, ?_, rfl, ?_⟩ <;> simp [illegalWord, reservedOpc, opcOf]

theorem witness_CompletionLeavesEverythingElse :
    exec .hdr State.reset = .next (succeeded State.reset 0xFFFFFFFF false) ∧
      exec .nop (withRes 5) = .next (succeededKeep (withRes 5) false) := ⟨rfl, rfl⟩

/-- RES, P and ERR each change at a completion, and RES at a reset. -/
theorem witness_ResultsChangeOnlyAtCompletionOrReset :
    nextHas (step (busyTurn 0x12000000#32 .engine)) (fun t => t.res ≠ 0#64 && t.p) = true ∧
      nextHas (step (busyTurn 0x20000000#32 .engine)) (fun t => t.err ≠ .none) = true ∧
      nextHas (step { withRes 7 with agenda := [.reset] }) (fun t => t.res ≠ 7#64) = true := by decide

/-- A host write to the first and to the last PB word, and a reset, change a byte of PB. -/
theorem witness_PbChangesOnlyByIdleHostWriteOrReset :
    (∃ t, step (turn (opLoad 0 0x00FFFFFF#32)) = .next t ∧ t.pb.readByte 0 ≠ State.reset.pb.readByte 0) ∧
      (∃ t, step (turn (opLoad 46 0xFFFFFF00#32)) = .next t ∧ t.pb.readByte 187 ≠ State.reset.pb.readByte 187) ∧
      (∃ t, step { packet [0x47] with agenda := [.reset] } = .next t ∧
        t.pb.readByte 0 ≠ (packet [0x47]).pb.readByte 0) :=
  ⟨⟨_, rfl, by decide⟩, ⟨_, rfl, by decide⟩, ⟨_, rfl, by decide⟩⟩

/-- Addresses 0 and 3, with BUSY 0 and with BUSY 1. -/
theorem witness_CommandWriteIsAcceptedWhenIdle :
    (turn (.hostWrite 0#9 0x10000000#32)).agenda = .hostWrite 0#9 0x10000000#32 :: [.engine] ∧
      (turn (.hostWrite 0#9 0x10000000#32)).busy = false ∧ (0#9).toNat < 4 ∧
      (busyTurn 0#32 (.hostWrite 3#9 0xFFFFFFFF#32)).agenda = .hostWrite 3#9 0xFFFFFFFF#32 :: [.engine] ∧
      (busyTurn 0#32 (.hostWrite 3#9 0xFFFFFFFF#32)).busy = true ∧ (3#9).toNat < 4 := by decide

/-- A step from CMDOVR = 1 that keeps it, one that clears it by STATUS, and a reset. -/
theorem witness_DroppedCommandWriteSetsStickyCmdovr :
    (busyTurn 0#32 (.hostWrite 0#9 0#32)).busy = true ∧
      (∃ t, step { turn (opWr 4 0x00000200#32) with cmdovr := true } = .next t ∧ t.cmdovr = true) ∧
      (∃ t, step { turn opClr with cmdovr := true } = .next t ∧ t.cmdovr = false) ∧
      (∃ t, step { turn .reset with cmdovr := true } = .next t ∧ t.cmdovr = false) :=
  ⟨rfl, ⟨_, rfl, by decide⟩, ⟨_, rfl, by decide⟩, ⟨_, rfl, by decide⟩⟩

/-- The first and last address of the PB window, and the three steps for PBLOCK. -/
theorem witness_DroppedPbWriteSetsStickyPblock :
    (busyTurn 0#32 (.hostWrite 0x100#9 0#32)).busy = true ∧ 0x100 ≤ (0x100#9).toNat ∧ (0x1BB#9).toNat < 0x1BC ∧
      (∃ t, step { turn (opWr 4 0x00000100#32) with pblock := true } = .next t ∧ t.pblock = true) ∧
      (∃ t, step { turn opClr with pblock := true } = .next t ∧ t.pblock = false) ∧
      (∃ t, step { turn .reset with pblock := true } = .next t ∧ t.pblock = false) :=
  ⟨rfl, by decide, by decide, ⟨_, rfl, by decide⟩, ⟨_, rfl, by decide⟩, ⟨_, rfl, by decide⟩⟩

/-- Addresses 4 and 7, for the write and for the read; bits 8 and 9 of the written word both clear and both set. -/
theorem witness_StatusAccesses :
    (turn (.hostWrite 4#9 0xFFFFFCFF#32)).agenda = .hostWrite 4#9 0xFFFFFCFF#32 :: [.engine] ∧ (4#9).toNat / 4 = 1 ∧
      (turn (.hostRead 7#9)).agenda = .hostRead 7#9 :: [.engine] ∧ (7#9).toNat / 4 = 1 ∧
      (0xFFFFFCFF#32).getLsbD 8 = false ∧ (0xFFFFFCFF#32).getLsbD 9 = false ∧
      (0x00000300#32).getLsbD 8 = true ∧ (0x00000300#32).getLsbD 9 = true := by decide

theorem witness_CmdAndResReadBack : (turn (.hostRead 3#9)).agenda = .hostRead 3#9 :: [.engine] ∧
    (0#9).toNat / 4 = 0 ∧ (3#9).toNat / 4 = 0 ∧ (8#9).toNat / 4 = 2 ∧ (0x0B#9).toNat / 4 = 2 ∧
    (0x0C#9).toNat / 4 = 3 ∧ (0x0F#9).toNat / 4 = 3 := by decide

/-- The first and the last PB word, BUSY 0 and BUSY 1. -/
theorem witness_PbWordWriteStoresFourBytes :
    (turn (.hostWrite 0x100#9 0#32)).pb.wf = true ∧
      (turn (.hostWrite 0x100#9 0#32)).agenda = .hostWrite 0x100#9 0#32 :: [.engine] ∧ (0x100#9).toNat / 4 = 64 + 0 ∧
      (turn (.hostWrite 0x100#9 0#32)).busy = false ∧ (busyTurn 0#32 (.hostWrite 0x1BB#9 0#32)).pb.wf = true ∧
      (0x1BB#9).toNat / 4 = 64 + 46 ∧ (busyTurn 0#32 (.hostWrite 0x1BB#9 0#32)).busy = true := by decide

theorem witness_PbWordReadIsBigEndian :
    (turn (.hostRead 0x103#9)).agenda = .hostRead 0x103#9 :: [.engine] ∧ (0x103#9).toNat / 4 = 64 + 0 ∧
      (0x1B8#9).toNat / 4 = 64 + 46 ∧
      ∃ t, exec .hdr (packet [0x47, 0x40, 0x10, 0x11]) = .next t ∧ t.res = 0x47401011#64 :=
  ⟨rfl, by decide, by decide, _, rfl, by decide⟩

/-- Both ends of each reserved range, and of the read-only pair for a write. -/
theorem witness_ReservedOffsetsReadZeroAndIgnoreWrites :
    (turn (.hostRead 0x010#9)).agenda = .hostRead 0x010#9 :: [.engine] ∧
      (turn (.hostWrite 0x008#9 1#32)).agenda = .hostWrite 0x008#9 1#32 :: [.engine] ∧
      (∀ a ∈ [0x010#9, 0x0FF#9], 0x010 ≤ a.toNat ∧ a.toNat < 0x100) ∧
      (∀ a ∈ [0x008#9, 0x00F#9], 0x008 ≤ a.toNat ∧ a.toNat < 0x100) ∧
      ∀ a ∈ [0x1BC#9, 0x1FF#9], 0x1BC ≤ a.toNat := by decide

theorem witness_HostReadHasNoSideEffect :
    (busyTurn 0#32 (.hostRead 4#9)).agenda = .hostRead 4#9 :: [.engine] ∧
      step (busyTurn 0#32 (.hostRead 4#9)) =
        .next { busyTurn 0#32 (.hostRead 4#9) with rdata := 1#32, agenda := [.engine] } := ⟨rfl, rfl⟩

theorem witness_ResetReturnsEveryPieceOfState :
    (busyTurn 0x10000000#32 .reset).agenda = .reset :: [.engine] ∧ (busyTurn 0x10000000#32 .reset).pend ≠ none := by
  decide

/-- A legal state with no command pending and one with a command pending, each with a step. -/
theorem witness_EveryStepKeepsTheLegalState :
    Legal (turn (opLoad 46 0x12345678#32)) ∧ (∃ t, step (turn (opLoad 46 0x12345678#32)) = .next t) ∧
      Legal (busyTurn 0x10000000#32 .engine) ∧ ∃ t, step (busyTurn 0x10000000#32 .engine) = .next t :=
  ⟨by unfold Legal; decide, ⟨_, rfl⟩, by unfold Legal; decide, ⟨_, rfl⟩⟩

/-- Two histories that store the same bytes in another order, the reset fill among them. -/
theorem witness_EqualBytesMeanEqualBuffers :
    (((Memory.writeByte [] 187 0x01).writeByte 0 0x47).wf = true) ∧
      ((((Memory.writeByte [] 0 0x47).writeByte 5 0x00).writeByte 5 0xFF).writeByte 187 0x01).wf = true ∧
      ∀ a, a < 188 → ((Memory.writeByte [] 187 0x01).writeByte 0 0x47).readByte a =
        ((((Memory.writeByte [] 0 0x47).writeByte 5 0x00).writeByte 5 0xFF).writeByte 187 0x01).readByte a := by
  decide +kernel

/-- Steps 8 to 10 of P3: writes to PB and CMD and a read while CRC32 is pending. -/
def p3 : State :=
  { State.reset.accept 0x600000BC#32 with
    agenda := [opLoad 0 0x47000030#32, opWr 0 0x10000000#32, opRd 4, .engine] }

theorem witness_PendingCommandIsNotDisturbed : p3.busy = true ∧ p3.pend = some 0x600000BC#32 ∧
    decode 0x600000BC#32 = .command (.crc32 0 188) ∧
    p3.agenda = [opLoad 0 0x47000030#32, opWr 0 0x10000000#32, opRd 4] ++ .engine :: [] ∧
    ∀ t ∈ [opLoad 0 0x47000030#32, opWr 0 0x10000000#32, opRd 4], isHostAccess t = true := by decide

/-- A command with accesses before the engine's turn, an illegal word on an exhausted agenda, and a reset before the
engine's turn. -/
theorem witness_AcceptedCommandCompletes :
    (p3.busy = true ∧ p3.pend = some 0x600000BC#32 ∧ Turn.reset ∉ p3.agenda ∧
        decode 0x600000BC#32 = .command (.crc32 0 188)) ∧
      ((State.reset.accept 0x01000000#32).busy = true ∧ (State.reset.accept 0x01000000#32).pend = some 0x01000000#32 ∧
        Turn.reset ∉ (State.reset.accept 0x01000000#32).agenda ∧ illegalWord 0x01000000#32) ∧
      (busyTurn 0#32 .reset).pend = some 0#32 := by
  unfold illegalWord reservedOpc; decide

/-- Two states that agree on the footprint of AFLEN and differ in byte 0, in CMD and in RES; and two that agree on RES,
for NANOS. -/
theorem witness_ResultsDependOnlyOnTheListedBytes :
    (∀ j ∈ footprint (packet [0x47, 0, 0, 0x20, 7, 0]) .aflen,
      (packet [0x47, 0, 0, 0x20, 7, 0]).pb.readByte j =
        { packet [0x00, 0, 0, 0x20, 7, 0] with cmd := 1#32, res := 9#64 }.pb.readByte j) ∧
      (packet [0x47, 0, 0, 0x20, 7, 0]).pb ≠ (packet [0x00, 0, 0, 0x20, 7, 0]).pb ∧
      footprint State.reset .nanos = [] ∧ (withRes 27).res = { withRes 27 with p := true }.res := by decide

/-- EXEC with no poll and with two polls before the completion. -/
theorem witness_ExecNotationRunsTheCommand : WellFormed (.crc32 255 255) = true ∧ State.reset.busy = false ∧
    { State.reset with agenda := opExec (.crc32 255 255) 0 }.agenda = opExec (.crc32 255 255) 0 ++ [] ∧
    { State.reset with agenda := opExec .hdr 2 ++ [Turn.reset] }.agenda = opExec .hdr 2 ++ [Turn.reset] := by decide

theorem witness_NopKeepsResAndClearsErr : (opcOf 0x00000001#32 = 0 ∧ (0x00000001#32).toNat ≠ 0) ∧
    (opcOf 0x00FFFFFF#32 = 0 ∧ (0x00FFFFFF#32).toNat ≠ 0) := ⟨by decide, by decide, by simp⟩

/-- Two packets that differ in the continuity counter only (L1.3). -/
theorem witness_HeaderFieldsCoverTheWord :
    byteAt (packet [0x47, 0xE1, 0xFF, 0xF7]) 0 = byteAt (packet [0x47, 0xE1, 0xFF, 0xF0]) 0 ∧
      byteAt (packet [0x47, 0xE1, 0xFF, 0xF7]) 1 = byteAt (packet [0x47, 0xE1, 0xFF, 0xF0]) 1 ∧
      byteAt (packet [0x47, 0xE1, 0xFF, 0xF7]) 2 = byteAt (packet [0x47, 0xE1, 0xFF, 0xF0]) 2 ∧
      byteAt (packet [0x47, 0xE1, 0xFF, 0xF7]) 3 / 16 = byteAt (packet [0x47, 0xE1, 0xFF, 0xF0]) 3 / 16 ∧
      byteAt (packet [0x47, 0xE1, 0xFF, 0xF7]) 3 ≠ byteAt (packet [0x47, 0xE1, 0xFF, 0xF0]) 3 ∧
      Instr.afc ∈ ccFreeCommands := by decide

/-- Every AFC value, L at 183 and at 184. -/
theorem witness_AfCheckGuardsEveryAfCommand : Instr.offext ∈ afCommands ∧
    afcOf (af 0x00 0 []) = 0 ∧ afcOf (af 0x10 0 []) = 1 ∧ afcOf (af 0x20 184 []) = 2 ∧ afLenOf (af 0x20 184 []) = 184 ∧
    afcOf (af 0x30 183 []) = 3 ∧ afLenOf (af 0x30 183 []) = 183 ∧ Instr.aflen ≠ .tpdlen ∧ Instr.aflen ≠ .offext ∧
    TpdReadable (af 0x30 183 [0x02, 181]) := by
  unfold TpdReadable; decide

/-- For every statement made with AfRule: a readable field at both ends of L, no field (both AFC values), L too big. -/
theorem witness_AfRule : AfReadable (af 0x20 0 []) ∧ AfReadable (af 0x30 183 [0x10]) ∧ ¬ HasAf (af 0x00 255 []) ∧
    ¬ HasAf (af 0x10 255 []) ∧ (HasAf (af 0x20 184 []) ∧ 183 < afLenOf (af 0x20 184 [])) ∧
    (HasAf (af 0x30 255 []) ∧ 183 < afLenOf (af 0x30 255 [])) := by
  unfold AfReadable HasAf; decide

/-- For TpdRule besides: the declared private data ends at byte 187, passes it by one, and is absent (L2.5). -/
theorem witness_TpdRule :
    (AfReadable (af 0x30 100 [0x02, 181]) ∧ TpdReadable (af 0x30 100 [0x02, 181])) ∧
      (AfReadable (af 0x30 100 [0x00, 200]) ∧ TpdReadable (af 0x30 100 [0x00, 200])) ∧
      (AfReadable (af 0x30 100 [0x02, 182]) ∧ ¬ TpdReadable (af 0x30 100 [0x02, 182])) := by
  unfold AfReadable HasAf TpdReadable; decide

/-- All sub-fields present with 168 bytes of private data at 19 (the largest that fits), and none present. -/
theorem witness_PresentSubFieldsDoNotOverlap :
    (AfReadable { State.reset with pb := bytesAt (af 0x30 183 [0x1E]).pb 19 [168] } ∧
      TpdReadable { State.reset with pb := bytesAt (af 0x30 183 [0x1E]).pb 19 [168] } ∧
      (∀ k ∈ [1, 2, 3, 4], flagOf { State.reset with pb := bytesAt (af 0x30 183 [0x1E]).pb 19 [168] } k = true)) ∧
      AfReadable (af 0x20 0 [0]) ∧ TpdReadable (af 0x20 0 [0]) ∧ flagOf (af 0x20 0 [0]) 1 = false := by
  unfold AfReadable HasAf TpdReadable; decide

/-- The payload window's cases: AFC 0 and 1, AFC 2 and 3 with L at 0, 183, 184. -/
theorem witness_PayloadWindow : ¬ HasAf (af 0x00 184 []) ∧ ¬ HasAf (af 0x10 184 []) ∧
    (HasAf (af 0x20 0 []) ∧ afLenOf (af 0x20 0 []) ≤ 183) ∧ (HasAf (af 0x30 183 []) ∧ afLenOf (af 0x30 183 []) ≤ 183) ∧
    (HasAf (af 0x30 184 []) ∧ 183 < afLenOf (af 0x30 184 [])) := by
  unfold HasAf; decide

/-- A PCR with extension 299, one with 300, and the largest; an OPCR with extension 0x1FF and one with 0. -/
theorem witness_TimestampComposition :
    (∀ s ∈ [af 0x20 183 [0x10, 0, 0, 0, 0, 0x7F, 0x2B], af 0x20 183 [0x10, 0, 0, 0, 0, 0x7F, 0x2C],
        af 0x30 0 [0x10]], AfReadable s ∧ flagOf s 4 = true) ∧
      (∀ s ∈ [af 0x30 13 [0x18], af 0x30 13 [0x18, 0, 0, 0, 0, 0x80, 0x7E, 0, 0, 0, 1, 0x7E, 0]],
        AfReadable s ∧ flagOf s 4 = true) := by
  unfold AfReadable HasAf; decide

theorem witness_NanosConvertsResOrOverflows :
    (withRes 0).res.toNat < 498062089990157894 ∧ (withRes 498062089990157893).res.toNat < 498062089990157894 ∧
      498062089990157894 ≤ (withRes 498062089990157894).res.toNat ∧
      498062089990157894 ≤ (withRes 18446744073709551615).res.toNat ∧ Instr.pcr ≠ .nanos ∧ Instr.pcr ≠ .nop ∧
      nextHas (exec .pcr (af 0x30 0 [0x10])) (fun t => t.res = 2576980377811#64) = true := by decide

/-- The largest PCR (2576980377811), an OPCR that is absent, and the largest RES below 2^42. -/
theorem witness_NanosOfATimestampFits :
    nextHas (exec .pcr (af 0x30 0 [0x10])) (fun t => t.err = .none && t.res = 2576980377811#64) = true ∧
      nextHas (exec .opcr (af 0x30 0 [0x08])) (fun t => t.err = .none && t.res = 0#64) = true ∧
      (withRes 4398046511103).res.toNat < 2 ^ 42 := by decide

/-- A failure of each kind a command can end in. -/
theorem witness_NanosAfterAFailureGivesZero :
    nextHas (exec .aflen (af 0x10 0 [])) (fun t => t.err = .noaf) = true ∧
      nextHas (exec (.crc32 180 9) (withRes 5)) (fun t => t.err = .oob) = true ∧
      nextHas (exec .nanos (withRes 498062089990157894)) (fun t => t.err = .ovf) = true := by decide

/-- Both CRC commands: the ends of the operand fields, of the packet and of the length test. -/
theorem witness_CrcOperands : (255 : Nat) < 256 ∧ 0 + 188 ≤ 188 ∧ 188 + 0 ≤ 188 ∧ 184 + 4 ≤ 188 ∧ 185 + 3 ≤ 188 ∧
    188 < 188 + 1 ∧ 188 < 255 + 255 ∧ crcOf State.reset 184 4 = 0xFFFFFFFF ∧ crcOf State.reset 185 3 = 0 := by decide

/-- "123456789" with its CRC behind it, and 8 bytes of reset fill at the end of the packet. -/
theorem witness_CrcResidueIsZero :
    (∃ t, exec (.crc32 0 13)
          (packet [0x31, 0x32, 0x33, 0x34, 0x35, 0x36, 0x37, 0x38, 0x39, 0x03, 0x76, 0xE6, 0xE7]) = .next t ∧
        t.res.toNat = beRead
          (packet [0x31, 0x32, 0x33, 0x34, 0x35, 0x36, 0x37, 0x38, 0x39, 0x03, 0x76, 0xE6, 0xE7]) (0 + 13 - 4) 4) ∧
      180 + 8 ≤ 188 ∧ ∀ j, 180 ≤ j → j < 180 + 8 → byteAt State.reset j = 0xFF :=
  ⟨⟨_, rfl, by decide +kernel⟩, by decide, fun _ _ _ => rfl⟩

theorem witness_CommandsOnTheResetFill : (∀ j, j < 5 → (packet []).pb.readByte j = 0xFF#8) ∧ Instr.opcr ∈ afCommands := by
  decide

end Sys2Proof.Tests
end

section
/-! SUPPORT. How each command ends: in one of the three ways of 00_scope.md R9. -/

namespace Sys2Proof.Machine

/-! ### Values that fit RES -/

theorem bits_lt (v hi lo : Nat) : bits v hi lo < 2 ^ (hi - lo + 1) := Nat.mod_lt _ (Nat.two_pow_pos _)

/-- A command that completes with a field of at most 64 bits. -/
theorem ends_complete_bits (s : State) (v hi lo : Nat) (p : Bool) (h : hi - lo + 1 ≤ 64) :
    Ends s (complete s (bits v hi lo) p) :=
  ends_complete s p ((bits_lt v hi lo).trans_le (Nat.pow_le_pow_right (by omega) h))

/-- An offset inside the packet, or one past its end, fits RES. -/
theorem ends_complete_of_le (s : State) {r : Nat} (p : Bool) (h : r ≤ 188) : Ends s (complete s r p) :=
  ends_complete s p (by omega)

/-- A 32-bit CRC fits RES. -/
theorem ends_complete_word (s : State) (c : Word) (p : Bool) : Ends s (complete s c.toNat p) :=
  ends_complete s p (c.isLt.trans (by decide))

/-! ### The shared reads of the commands -/

theorem ends_readHeader {s : State} {k : Nat → Outcome} (hk : ∀ h, h < 2 ^ 32 → Ends s (k h)) :
    Ends s (readHeader s k) :=
  ends_memRead (by omega) hk

/-- A header command that gives a field of the header word. -/
theorem ends_headerField (s : State) (hi lo : Nat) (h : hi - lo + 1 ≤ 64) :
    Ends s (readHeader s fun w => complete s (bits w hi lo) false) :=
  ends_readHeader fun w _ => ends_complete_bits s w hi lo false h

/-- A header command that gives one bit of the header word. -/
theorem ends_headerBit (s : State) (n : Nat) : Ends s (readHeader s fun w => completeBit s (bit w n)) :=
  ends_readHeader fun w _ => ends_completeBit s w n

/-- A command that gives one flag of the adaptation field. -/
theorem ends_flagBit (s : State) (n : Nat) : Ends s (afFlags s fun f => completeBit s (bit f n)) :=
  ends_afFlags fun f _ => ends_completeBit s f n

theorem ends_payloadWindow {s : State} {k : Nat → Nat → Outcome} (hk : ∀ start pl, start ≤ 188 → Ends s (k start pl)) :
    Ends s (payloadWindow s k) := by
  rcases payloadWindow_cases s k with ⟨_, h⟩ | ⟨_, _, h⟩ | ⟨_, hl, h⟩ <;> rw [h]
  · exact hk _ _ (by omega)
  · exact ends_raise s (by decide)
  · exact hk _ _ (by omega)

/-- PCR and OPCR end alike, whatever the offset of their window inside the packet. -/
theorem ends_timestamp {s : State} {o : Nat} (h : o + 6 ≤ 188) :
    Ends s (decodePcr s o fun t => complete s t true) := by
  have hhigh : s.pb.memRead o 4 < 2 ^ 32 := by simpa [Memory.memRead] using bigEndian_lt (s.pb.slice o 4)
  rw [decodePcr_eq h]
  exact ends_complete s true ((pcrValue_le hhigh).trans_lt (by decide))

theorem rangeOutOfBounds_iff (start len : Nat) : rangeOutOfBounds start len = true ↔ 188 < start + len := by
  simp [rangeOutOfBounds, Config.pktBytes]

/-! ### The commands -/

theorem ends_execSplice (s : State) : Ends s (execSplice s) :=
  ends_afFlags fun f _ => by
    split
    · exact ends_memRead (by have := offSpl_le f; omega) fun _ hv => ends_complete s true (hv.trans (by decide))
    · exact ends_complete s false (by decide)

theorem ends_execTpdlen (s : State) : Ends s (execTpdlen s) :=
  ends_afFlags fun _ _ =>
    ends_tpdCheck (ends_complete_of_le s false (by omega)) fun _ hv => ends_complete_of_le s true (by omega)

theorem ends_execOffext (s : State) : Ends s (execOffext s) :=
  ends_afFlags fun f _ =>
    have ho := offTpd_le f
    ends_tpdCheck (ends_complete s _ (by simp only [offExt]; omega)) fun _ hv =>
      ends_complete s _ (by simp only [offExt]; omega)

theorem ends_execPcr (s : State) : Ends s (execPcr s) :=
  ends_afFlags fun f _ => by
    split
    · exact ends_timestamp (by simp only [offPcr]; omega)
    · exact ends_complete s false (by decide)

theorem ends_execOpcr (s : State) : Ends s (execOpcr s) :=
  ends_afFlags fun f _ => by
    split
    · exact ends_timestamp (by have := offOpcr_le f; omega)
    · exact ends_complete s false (by decide)

theorem ends_execNanos (s : State) : Ends s (execNanos s) := by
  by_cases h : pcrNanos s.res.toNat ≥ 2 ^ 64
  · rw [execNanos, if_pos h]
    exact ends_raise s (by decide)
  · rw [execNanos, if_neg h]
    exact ends_complete s false (Nat.lt_of_not_le h)

theorem ends_execCrc32 (start len : Nat) (s : State) : Ends s (execCrc32 start len s) := by
  by_cases hb : rangeOutOfBounds start len = true
  · rw [execCrc32, if_pos hb]
    exact ends_raise s (by decide)
  · rw [execCrc32, if_neg hb, crcCalc_eq (by rw [rangeOutOfBounds_iff] at hb; omega)]
    exact ends_complete_word s _ false

theorem ends_execCrcchk (start len : Nat) (s : State) : Ends s (execCrcchk start len s) := by
  by_cases hb : rangeOutOfBounds start len = true
  · rw [execCrcchk, if_pos hb]
    exact ends_raise s (by decide)
  · rw [execCrcchk, if_neg hb]
    rw [rangeOutOfBounds_iff] at hb
    by_cases hl : len < 4
    · rw [if_pos hl]
      exact ends_complete s false (by decide)
    · rw [if_neg hl, crcCalc_eq (by omega)]
      exact ends_memRead (by omega) fun _ _ => ends_complete_word s _ _

/-- Every command ends in one of the three ways (00_scope.md R9); none faults and none is refused. -/
theorem ends_exec (i : Instr) (s : State) : Ends s (exec i s) := by
  cases i with
  | nop => exact .inr (.inl ⟨false, rfl⟩)
  | hdr => exact ends_readHeader fun _ hw => ends_complete s false (hw.trans (by decide))
  | sync => exact ends_headerField s 31 24 (by decide)
  | tei => exact ends_headerBit s 23
  | pusi => exact ends_headerBit s 22
  | tpri => exact ends_headerBit s 21
  | pid => exact ends_headerField s 20 8 (by decide)
  | tsc => exact ends_headerField s 7 6 (by decide)
  | afc => exact ends_headerField s 5 4 (by decide)
  | cc => exact ends_headerField s 3 0 (by decide)
  | hasaf => exact ends_headerBit s 5
  | haspl => exact ends_headerBit s 4
  | aflen => exact ends_afCheck fun _ hl => ends_complete_of_le s false (by omega)
  | afflags => exact ends_afFlags fun _ hf => ends_complete s false (hf.trans (by decide))
  | disc => exact ends_flagBit s 7
  | rai => exact ends_flagBit s 6
  | espri => exact ends_flagBit s 5
  | haspcr => exact ends_flagBit s 4
  | hasopcr => exact ends_flagBit s 3
  | hasspl => exact ends_flagBit s 2
  | hastpd => exact ends_flagBit s 1
  | hasext => exact ends_flagBit s 0
  | pcr => exact ends_execPcr s
  | opcr => exact ends_execOpcr s
  | splice => exact ends_execSplice s
  | tpdlen => exact ends_execTpdlen s
  | offpcr => exact ends_afFlags fun _ _ => ends_complete_of_le s _ (by simp only [offPcr]; omega)
  | offopcr => exact ends_afFlags fun f _ => ends_complete_of_le s _ ((offOpcr_le f).trans (by decide))
  | offspl => exact ends_afFlags fun f _ => ends_complete_of_le s _ ((offSpl_le f).trans (by decide))
  | offtpd => exact ends_afFlags fun f _ => ends_complete_of_le s _ ((offTpd_le f).trans (by decide))
  | offext => exact ends_execOffext s
  | ploff => exact ends_payloadWindow fun _ _ h => ends_complete_of_le s _ h
  | pllen => exact ends_payloadWindow fun start _ _ => ends_complete_of_le s _ (Nat.sub_le 188 start)
  | nanos => exact ends_execNanos s
  | crc32 start len => exact ends_execCrc32 start len s
  | crcchk start len => exact ends_execCrcchk start len s

/-! ### What the end of a command leaves alone -/

/-- What the end of a command leaves alone, and that it leaves nothing pending (40_control.md R102). -/
structure Completed (s t : State) : Prop where
  pb : t.pb = s.pb
  cmd : t.cmd = s.cmd
  busy : t.busy = false
  cmdovr : t.cmdovr = s.cmdovr
  pblock : t.pblock = s.pblock
  pend : t.pend = none
  rdata : t.rdata = s.rdata
  agenda : t.agenda = s.agenda

theorem completed_complete (s : State) (r : Nat) (p : Bool) : Completed s (s.complete r p) := by constructor <;> rfl

theorem completed_completeKeep (s : State) (p : Bool) : Completed s (s.completeKeep p) := by constructor <;> rfl

theorem completed_raise (s : State) (e : ErrCode) : Completed s (s.raise e) := by constructor <;> rfl

theorem Ends.completed {s t : State} (h : Ends s (.next t)) : Completed s t := by
  obtain ⟨r, p, _, h⟩ | ⟨p, h⟩ | ⟨e, _, h⟩ := h
  · cases h; exact completed_complete s r p
  · cases h; exact completed_completeKeep s p
  · cases h; exact completed_raise s e

/-- With a word pending the engine's turn completes it, legal or not (40_control.md R102, R104). -/
theorem completed_engineTurn {s t : State} {w : Word} (hp : s.pend = some w) (h : engineTurn s = .next t) :
    Completed s t := by
  cases hd : decode w with
  | command i =>
    rw [engineTurn_of_command hp hd] at h
    exact Ends.completed (h ▸ ends_exec i s)
  | illegal r =>
    rw [engineTurn_of_illegal hp hd] at h
    cases h
    exact completed_raise s .ill

end Sys2Proof.Machine
end

section
/-! SUPPORT. What one step can do, by the turn it takes (40_control.md R100). -/

namespace Sys2Proof.Machine

open Sys2Proof.Safety

/-- What one step can do: `Stepped s t` lists the turns of 40_control.md R100 with the state each leads to. -/
inductive Stepped (s : State) : State → Prop where
  | idle (rest : List Turn) (turn : EngineTurnIs s rest) (pend : s.pend = none) : Stepped s { s with agenda := rest }
  | completion (rest : List Turn) (t : State) (turn : EngineTurnIs s rest) (pend : s.pend ≠ none)
      (done : Completed { s with agenda := rest } t) : Stepped s t
  | hostRead (a : HostAddr) (rest : List Turn) (turn : s.agenda = .hostRead a :: rest) :
      Stepped s (State.hostRead { s with agenda := rest } a)
  | hostWrite (a : HostAddr) (w : Word) (rest : List Turn) (turn : s.agenda = .hostWrite a w :: rest) :
      Stepped s (State.hostWrite { s with agenda := rest } a w)
  | reset (rest : List Turn) (turn : s.agenda = .reset :: rest) : Stepped s (State.resetEngine { s with agenda := rest })

/-- Whether the agenda lists it or is exhausted, the engine's turn is the same step. -/
theorem step_of_engineTurnIs {s : State} {rest : List Turn} (h : EngineTurnIs s rest) :
    step s = engineTurn { s with agenda := rest } := by
  obtain h | ⟨h, rfl⟩ := h
  · rw [step_of_cons h, takeTurn]
  · rw [step_of_nil h, ← h]

theorem stepped_of_engineTurnIs {s t : State} {rest : List Turn} (hturn : EngineTurnIs s rest)
    (h : step s = .next t) : Stepped s t := by
  rw [step_of_engineTurnIs hturn] at h
  cases hp : s.pend with
  | none =>
    rw [engineTurn_of_none (s := { s with agenda := rest }) hp] at h
    cases h
    exact .idle rest hturn hp
  | some w => exact .completion rest t hturn (by simp [hp]) (completed_engineTurn hp h)

theorem stepped_of_step {s t : State} (h : step s = .next t) : Stepped s t := by
  match ha : s.agenda with
  | [] => exact stepped_of_engineTurnIs (.inr ⟨ha, rfl⟩) h
  | .engine :: rest => exact stepped_of_engineTurnIs (.inl ha) h
  | .hostRead a :: rest => rw [step_of_cons ha] at h; cases h; exact .hostRead a rest ha
  | .hostWrite a w :: rest => rw [step_of_cons ha] at h; cases h; exact .hostWrite a w rest ha
  | .reset :: rest => rw [step_of_cons ha] at h; cases h; exact .reset rest ha

end Sys2Proof.Machine
end

section
/-! SUPPORT. Host accesses by the register their address selects (20_memory.md R52). -/

namespace Sys2Proof.Machine

open Sys2Proof.Safety

/-! ### Which register an address selects -/

theorem hostTarget_of_cmd {a : HostAddr} (h : a.toNat / 4 = 0) : hostTarget a = .cmd := by
  rw [hostTarget_eq, if_pos h]

theorem hostTarget_eq_status_iff (a : HostAddr) : hostTarget a = .status ↔ a.toNat / 4 = 1 := by
  rw [hostTarget_eq]
  split_ifs <;> simp <;> omega

theorem hostTarget_of_resLo {a : HostAddr} (h : a.toNat / 4 = 2) : hostTarget a = .resLo := by
  rw [hostTarget_eq, h]; rfl

theorem hostTarget_of_resHi {a : HostAddr} (h : a.toNat / 4 = 3) : hostTarget a = .resHi := by
  rw [hostTarget_eq, h]; rfl

theorem hostTarget_eq_pbw_iff (a : HostAddr) (k : Nat) : hostTarget a = .pbw k ↔ k ≤ 46 ∧ a.toNat / 4 = 64 + k := by
  rw [hostTarget_eq]
  split_ifs <;> simp <;> omega

/-! ### The accesses -/

section
variable {s : State} {a : HostAddr} {w : Word} {rest : List Turn}

theorem step_of_hostRead (h : s.agenda = .hostRead a :: rest) :
    step s = .next { s with rdata := hostWord { s with agenda := rest } a, agenda := rest } := step_of_cons h

theorem step_of_hostWrite (h : s.agenda = .hostWrite a w :: rest) :
    step s = .next (State.hostWrite { s with agenda := rest } a w) := step_of_cons h

theorem hostWrite_of_cmd_busy (ht : hostTarget a = .cmd) (hb : s.busy = true) : s.hostWrite a w = s.dropCommand := by
  simp only [State.hostWrite, ht, hb, if_true]

theorem hostWrite_of_pbw_busy {k : Nat} (ht : hostTarget a = .pbw k) (hb : s.busy = true) :
    s.hostWrite a w = s.dropPbWrite := by
  simp only [State.hostWrite, ht, hb, if_true]

theorem hostWrite_of_status (ht : hostTarget a = .status) : s.hostWrite a w = s.writeStatus w := by
  simp only [State.hostWrite, ht]

end

theorem hostWrite_results (s : State) (a : HostAddr) (w : Word) :
    (s.hostWrite a w).res = s.res ∧ (s.hostWrite a w).p = s.p ∧ (s.hostWrite a w).err = s.err := by
  obtain h | ⟨h, _⟩ | ⟨h, _⟩ | h | ⟨h, _⟩ | ⟨k, _, _, _, h⟩ := hostWrite_cases s a w <;> simp [h]

/-- A host write changes a byte only by a store to its word, made while BUSY is 0. -/
theorem word_of_readByte_hostWrite_ne {s : State} {a : HostAddr} {w : Word} {j : Nat}
    (hne : (s.hostWrite a w).pb.readByte j ≠ s.pb.readByte j) :
    s.busy = false ∧ a.toNat / 4 = 64 + j / 4 ∧ j < 188 := by
  obtain h | ⟨h, _⟩ | ⟨h, _⟩ | h | ⟨h, _⟩ | ⟨k, hk, ht, hbusy, h⟩ := hostWrite_cases s a w <;> rw [h] at hne
  iterate 5 exact absurd rfl hne
  · have hword : 4 * k ≤ j ∧ j ≤ 4 * k + 3 := by
      by_contra hout
      exact hne (Memory.readByte_writeWord_other s.pb k w j (by omega))
    obtain ⟨_, ha⟩ := (hostTarget_eq_pbw_iff a k).1 ht
    exact ⟨hbusy, by omega, by omega⟩

/-! ### The legal state (10_state.md R33) -/

theorem legal_of_idle {s : State} (hpb : s.pb.wf = true) (hbusy : s.busy = false) (hpend : s.pend = none) : Legal s :=
  ⟨hpb, by rw [hbusy, hpend]; rfl, .inl hpend⟩

/-- A host write keeps the legal state: an accepted word is both PEND and CMD, and PBW[k] lies inside PB. -/
theorem legal_hostWrite {s : State} (a : HostAddr) (w : Word) (hs : Legal s) : Legal (s.hostWrite a w) := by
  obtain ⟨hpb, hbusy, hpend⟩ := hs
  obtain h | ⟨h, _⟩ | ⟨h, _⟩ | h | ⟨h, _⟩ | ⟨k, hk, _, _, h⟩ := hostWrite_cases s a w <;> rw [h]
  · exact ⟨hpb, hbusy, hpend⟩
  · exact ⟨hpb, rfl, .inr rfl⟩
  · exact ⟨hpb, hbusy, hpend⟩
  · exact ⟨hpb, hbusy, hpend⟩
  · exact ⟨hpb, hbusy, hpend⟩
  · exact ⟨Memory.wf_writeWord k w hpb (by omega), hbusy, hpend⟩

end Sys2Proof.Machine
end

section
/-! SUPPORT. STATUS: the word read, and its two sticky bits (10_state.md R25, R29 to R31). -/

namespace Sys2Proof.Machine

/-! ### Bit fields as parts of the vector -/

theorem bit_beq_zero {n : Nat} (x : BitVec n) (i : Nat) : (bit x.toNat i == 0) = !x.getLsbD i := by
  rw [bit_toNat, Bool.toNat_beq_zero]

theorem getLsbD_eq_of_bit {n : Nat} {x : BitVec n} {i : Nat} {b : Bool} (h : x.toNat / 2 ^ i % 2 = b.toNat) :
    x.getLsbD i = b := by
  rw [← Bool.toNat_bne_zero (x.getLsbD i), ← bit_toNat, bit_eq, h, Bool.toNat_bne_zero]

/-- A field `x[hi:lo]` (00_scope.md R6) as a slice of the vector. -/
theorem ofNat_bits {m : Nat} (x : BitVec m) (hi lo : Nat) :
    BitVec.ofNat (hi - lo + 1) (bits x.toNat hi lo) = x.extractLsb' lo (hi - lo + 1) := by
  apply BitVec.eq_of_toNat_eq
  simp [bits, Nat.shiftRight_eq_div_pow]

/-! ### The word read -/

theorem ErrCode.code_le (e : ErrCode) : e.code ≤ 4 := by cases e <;> decide

theorem statusFields_le (s : State) :
    s.busy.toNat ≤ 1 ∧ s.p.toNat ≤ 1 ∧ s.err.code ≤ 4 ∧ s.cmdovr.toNat ≤ 1 ∧ s.pblock.toNat ≤ 1 :=
  ⟨s.busy.toNat_le, s.p.toNat_le, s.err.code_le, s.cmdovr.toNat_le, s.pblock.toNat_le⟩

/-- The STATUS word is the sum of its fields: nothing of it is cut off. -/
theorem statusWord_toNat (s : State) : (statusWord s).toNat =
    s.busy.toNat + s.p.toNat * 2 ^ 1 + s.err.code * 2 ^ 4 + s.cmdovr.toNat * 2 ^ 8 + s.pblock.toNat * 2 ^ 9 := by
  obtain ⟨hbusy, hp, herr, hcmdovr, hpblock⟩ := statusFields_le s
  rw [statusWord, BitVec.toNat_ofNat]
  omega

/-- STATUS holds its fields at their bits, the reserved bits 0 (10_state.md R25). -/
theorem statusWord_fields (s : State) :
    (statusWord s).getLsbD 0 = s.busy ∧ (statusWord s).getLsbD 1 = s.p ∧
    (statusWord s).toNat / 2 ^ 4 % 2 ^ 4 = s.err.code ∧ (statusWord s).getLsbD 8 = s.cmdovr ∧
    (statusWord s).getLsbD 9 = s.pblock ∧ (statusWord s).toNat / 2 ^ 2 % 2 ^ 2 = 0 ∧
    (statusWord s).toNat / 2 ^ 10 = 0 := by
  obtain ⟨hbusy, hp, herr, hcmdovr, hpblock⟩ := statusFields_le s
  have hv := statusWord_toNat s
  refine ⟨getLsbD_eq_of_bit ?_, getLsbD_eq_of_bit ?_, ?_, getLsbD_eq_of_bit ?_, getLsbD_eq_of_bit ?_, ?_, ?_⟩ <;> omega

theorem statusWord_reset : statusWord State.reset = 0#32 := rfl

theorem hostWord_of_status (s : State) {a : HostAddr} (ha : a.toNat / 4 = 1) : hostWord s a = statusWord s := by
  simp only [hostWord, (hostTarget_eq_status_iff a).2 ha]

/-! ### The sticky bits -/

/-- A STATUS write clears a sticky bit by its own bit of the word. -/
theorem writeStatus_eq (s : State) (w : Word) : s.writeStatus w = { s with
    cmdovr := if w.getLsbD 8 then false else s.cmdovr
    pblock := if w.getLsbD 9 then false else s.pblock } := by
  rw [State.writeStatus, bit_beq_zero, bit_beq_zero]
  cases w.getLsbD 8 <;> cases w.getLsbD 9 <;> simp

/-- `flag` is a sticky bit of STATUS: of all turns only reset and a STATUS write with bit `n` set clear it. -/
structure StickyBit (flag : State → Bool) (n : Nat) : Prop where
  withAgenda : ∀ (s : State) (rest : List Turn), flag { s with agenda := rest } = flag s
  completed : ∀ {s t}, Completed s t → flag t = flag s
  hostRead : ∀ (s : State) (a : HostAddr), flag (s.hostRead a) = flag s
  writeStatus : ∀ (s : State) (w : Word), flag (s.writeStatus w) = if w.getLsbD n then false else flag s
  otherWrite : ∀ {s : State} {a : HostAddr} (w : Word), hostTarget a ≠ .status → flag s = true →
    flag (s.hostWrite a w) = true
  resetEngine : ∀ s : State, flag s.resetEngine = false

/-- Only STATUS writes clear CMDOVR and PBLOCK; a dropped write sets them. -/
theorem hostWrite_keeps_sticky {s : State} {a : HostAddr} (w : Word) (ht : hostTarget a ≠ .status) :
    (s.cmdovr = true → (s.hostWrite a w).cmdovr = true) ∧ (s.pblock = true → (s.hostWrite a w).pblock = true) := by
  unfold State.hostWrite
  split
  case h_1 => split <;> simp
  case h_2 h => exact absurd h ht
  case h_5 => split <;> simp
  all_goals simp

theorem stickyBit_cmdovr : StickyBit State.cmdovr 8 where
  withAgenda _ _ := rfl
  completed done := done.cmdovr
  hostRead _ _ := rfl
  writeStatus s w := by rw [writeStatus_eq]
  otherWrite w ht := (hostWrite_keeps_sticky w ht).1
  resetEngine _ := rfl

theorem stickyBit_pblock : StickyBit State.pblock 9 where
  withAgenda _ _ := rfl
  completed done := done.pblock
  hostRead _ _ := rfl
  writeStatus s w := by rw [writeStatus_eq]
  otherWrite w ht := (hostWrite_keeps_sticky w ht).2
  resetEngine _ := rfl

/-- A host write clears a sticky bit exactly when it is a STATUS write with that bit set. -/
theorem StickyBit.hostWrite_clears_iff {flag : State → Bool} {n : Nat} (hf : StickyBit flag n) {s : State}
    (hset : flag s = true) (a : HostAddr) (w : Word) :
    flag (s.hostWrite a w) = false ↔ a.toNat / 4 = 1 ∧ w.getLsbD n = true := by
  rw [← hostTarget_eq_status_iff]
  by_cases ht : hostTarget a = .status
  · simp [hostWrite_of_status ht, hf.writeStatus, hset, ht]
  · simp [hf.otherWrite w ht hset, ht]

/-- Which steps clear a sticky bit (10_state.md R29, R30). -/
theorem StickyBit.step_clears_iff {flag : State → Bool} {n : Nat} (hf : StickyBit flag n) {s t : State}
    (h : step s = .next t) (hset : flag s = true) :
    flag t = false ↔ (∃ a w rest, s.agenda = .hostWrite a w :: rest ∧ a.toNat / 4 = 1 ∧ w.getLsbD n = true) ∨
      (∃ rest, s.agenda = .reset :: rest) := by
  cases stepped_of_step h with
  | idle rest turn => obtain ha | ⟨ha, _⟩ := turn <;> simp [hf.withAgenda, hset, ha]
  | completion rest _ turn _ done => obtain ha | ⟨ha, _⟩ := turn <;> simp [hf.completed done, hf.withAgenda, hset, ha]
  | hostRead a rest turn => simp [hf.hostRead, hf.withAgenda, hset, turn]
  | hostWrite a w rest turn => simp [hf.hostWrite_clears_iff ((hf.withAgenda s rest).trans hset), turn]
  | reset rest turn => simp [hf.resetEngine, turn]

end Sys2Proof.Machine
end

section
/-! SUPPORT. Canonical packet buffers are determined by their bytes (10_state.md R23, log 6). -/

namespace Sys2Proof.Machine

theorem Memory.readByte_head (a : Nat) (v : Byte) (rest : Memory) : Memory.readByte ((a, v) :: rest) a = v := by
  rw [Memory.readByte_cons, if_pos rfl]

/-- A canonical buffer is canonical from its first listed index on. -/
theorem Memory.wfFrom_head {lo a : Nat} {v : Byte} {rest : Memory} (h : Memory.wfFrom lo ((a, v) :: rest) = true) :
    Memory.wfFrom a ((a, v) :: rest) = true := by
  rw [Memory.wfFrom_cons] at h ⊢
  exact ⟨Nat.le_refl a, h.2⟩

/-- The first listed byte is not the fill, so a canonical buffer that reads the same there starts no later. -/
theorem Memory.le_of_readByte_head_eq {lo lo' a : Nat} {v : Byte} {rest m : Memory}
    (h : Memory.wfFrom lo ((a, v) :: rest) = true) (hm : m.wfFrom lo' = true)
    (heq : Memory.readByte ((a, v) :: rest) a = m.readByte a) : lo' ≤ a := by
  obtain ⟨_, _, hv, _⟩ := (Memory.wfFrom_cons ..).1 h
  by_contra hlt
  rw [Memory.readByte_head, Memory.readByte_of_lt hm (by omega)] at heq
  exact hv heq

/-- Canonical buffers that agree on the packet are equal: they list the same first index with the same byte, and so on
along both lists. -/
theorem Memory.eq_of_readByte_eq : ∀ {m m' : Memory} {lo lo' : Nat}, m.wfFrom lo = true → m'.wfFrom lo' = true →
    (∀ c, c < 188 → m.readByte c = m'.readByte c) → m = m'
  | [], [], _, _, _, _, _ => rfl
  | [], (b, u) :: rest', _, lo', _, h', heq => by
    obtain ⟨_, hb, _, _⟩ := (Memory.wfFrom_cons ..).1 h'
    have := Memory.le_of_readByte_head_eq (lo' := b + 1) h' rfl (heq b hb).symm
    omega
  | (a, v) :: rest, [], lo, _, h, _, heq => by
    obtain ⟨_, ha, _, _⟩ := (Memory.wfFrom_cons ..).1 h
    have := Memory.le_of_readByte_head_eq (lo' := a + 1) h rfl (heq a ha)
    omega
  | (a, v) :: rest, (b, u) :: rest', lo, lo', h, h', heq => by
    obtain ⟨_, ha, _, hrest⟩ := (Memory.wfFrom_cons ..).1 h
    obtain ⟨_, hb, _, hrest'⟩ := (Memory.wfFrom_cons ..).1 h'
    obtain rfl : a = b := Nat.le_antisymm
      (Memory.le_of_readByte_head_eq h' (Memory.wfFrom_head h) (heq b hb).symm)
      (Memory.le_of_readByte_head_eq h (Memory.wfFrom_head h') (heq a ha))
    have hvu : v = u := by simpa [Memory.readByte_head] using heq a ha
    have htail : ∀ c, c < 188 → Memory.readByte rest c = Memory.readByte rest' c := by
      intro c hc
      by_cases hca : a = c
      · rw [Memory.readByte_of_lt hrest (by omega), Memory.readByte_of_lt hrest' (by omega)]
      · simpa [Memory.readByte_cons, hca] using heq c hc
    rw [hvu, Memory.eq_of_readByte_eq hrest hrest' htail]

end Sys2Proof.Machine
end

section
/-! PROOFS. The statements about the state (10_state.md). -/

namespace Sys2Proof.Machine

/-- Settles O29, by cases on the turn: a completion leaves nothing pending, reset gives the reset state, a host write
keeps the state legal, and the other turns touch none of its fields. -/
theorem everyStepKeepsTheLegalState : Obligations.EveryStepKeepsTheLegalState := by
  intro s t hs h
  cases stepped_of_step h with
  | idle => exact hs
  | completion _ _ _ _ done =>
    obtain ⟨hpb, _, _⟩ := hs
    exact legal_of_idle (done.pb ▸ hpb) done.busy done.pend
  | hostRead => exact hs
  | hostWrite a w => exact legal_hostWrite a w hs
  | reset => exact legal_of_idle Memory.wf_nil rfl rfl

/-- Settles O28: the reset state is idle and its PB is the fill. -/
theorem legalStateAtReset : Obligations.LegalStateAtReset := legal_of_idle Memory.wf_nil rfl rfl

/-- Settles O27: the state after reset by its table (10_state.md R35). -/
theorem resetStateIsAsTabled : Obligations.ResetStateIsAsTabled :=
  ⟨Memory.readByte_nil, rfl, rfl, rfl, rfl, rfl, rfl, statusWord_reset, rfl, rfl⟩

/-- Settles O12: the turns of `Stepped` other than a completion and a reset keep RES, P and ERR. -/
theorem resultsChangeOnlyAtCompletionOrReset : Obligations.ResultsChangeOnlyAtCompletionOrReset := by
  intro s t h hne
  cases stepped_of_step h with
  | idle => simp at hne
  | completion rest _ turn pend => exact .inl ⟨pend, rest, turn⟩
  | hostRead => simp at hne
  | hostWrite a w => simp [hostWrite_results] at hne
  | reset rest turn => exact .inr ⟨rest, turn⟩

/-- Settles O13: no command stores, and among host writes only a store changes PB, in its own word. -/
theorem pbChangesOnlyByIdleHostWriteOrReset : Obligations.PbChangesOnlyByIdleHostWriteOrReset := by
  intro s t j h hne
  cases stepped_of_step h with
  | idle => exact absurd rfl hne
  | completion rest _ _ _ done => exact absurd (by rw [done.pb]) hne
  | hostRead => exact absurd rfl hne
  | hostWrite a w rest turn =>
    obtain ⟨hbusy, hword, hj⟩ := word_of_readByte_hostWrite_ne hne
    exact .inl ⟨a, w, rest, turn, hbusy, hword, hj⟩
  | reset rest turn => exact .inr ⟨rest, turn⟩

/-- Settles O15: the dropped write by its target, the rest because CMDOVR is a sticky bit. -/
theorem droppedCommandWriteSetsStickyCmdovr : Obligations.DroppedCommandWriteSetsStickyCmdovr := by
  refine ⟨fun s a w rest h ha hb => ?_, fun s t => stickyBit_cmdovr.step_clears_iff⟩
  rw [step_of_hostWrite h, hostWrite_of_cmd_busy (s := { s with agenda := rest }) (hostTarget_of_cmd (by omega)) hb,
    State.dropCommand]

/-- Settles O16: the dropped write by its target, the rest because PBLOCK is a sticky bit. -/
theorem droppedPbWriteSetsStickyPblock : Obligations.DroppedPbWriteSetsStickyPblock := by
  refine ⟨fun s a w rest h hlo hhi hb => ?_, fun s t => stickyBit_pblock.step_clears_iff⟩
  have ht : hostTarget a = .pbw (a.toNat / 4 - 64) := (hostTarget_eq_pbw_iff a _).2 (by omega)
  rw [step_of_hostWrite h, hostWrite_of_pbw_busy (s := { s with agenda := rest }) ht hb, State.dropPbWrite]

/-- Settles O17: the write is honoured whatever BUSY is. -/
theorem statusWriteClearsOnlyTheNamedBits : Obligations.StatusWriteClearsOnlyTheNamedBits := by
  intro s a w rest h ha
  rw [step_of_hostWrite h, hostWrite_of_status ((hostTarget_eq_status_iff a).2 ha), writeStatus_eq]

/-- Settles O18: the read by the fields of the STATUS word, the writes as two cases of O17. -/
theorem statusReadsItsFields : Obligations.StatusReadsItsFields := by
  refine ⟨fun s a rest h ha => ⟨statusWord s, ?_, statusWord_fields s⟩,
    fun s a w rest h ha => ⟨fun h8 h9 => ?_, fun h8 h9 => ?_⟩, fun a ha => ?_⟩
  · rw [step_of_hostRead h, hostWord_of_status _ ha]; rfl
  · rw [statusWriteClearsOnlyTheNamedBits s a w rest h ha, h8, h9]; rfl
  · rw [statusWriteClearsOnlyTheNamedBits s a w rest h ha, h8, h9]; rfl
  · rw [step_of_hostRead (a := a) (rest := []) rfl, hostWord_of_status _ ha, ← statusWord_reset]; rfl

/-- Settles O20: each address by its target, the halves of RES as slices. -/
theorem cmdAndResReadBack : Obligations.CmdAndResReadBack := by
  refine fun s a rest h => ⟨fun ha => ?_, fun ha => ?_, fun ha => ?_⟩ <;> rw [step_of_hostRead h]
  · simp only [hostWord, hostTarget_of_cmd ha]
  · simp only [hostWord, hostTarget_of_resLo ha, ofNat_bits s.res 31 0]
  · simp only [hostWord, hostTarget_of_resHi ha, ofNat_bits s.res 63 32]

/-- Settles O30, by induction along both lists. -/
theorem equalBytesMeanEqualBuffers : Obligations.EqualBytesMeanEqualBuffers :=
  fun _ _ => Memory.eq_of_readByte_eq

end Sys2Proof.Machine
end

section
/-! SUPPORT. The host window, word by word: accesses to PBW[k], to the read-only and to the reserved offsets, and the
address bits that select nothing (20_memory.md R51 to R59). -/

namespace Sys2Proof.Machine

/-! ### Which register an address selects -/

theorem hostTarget_of_reserved {a : HostAddr} (h : (0x010 ≤ a.toNat ∧ a.toNat < 0x100) ∨ 0x1BC ≤ a.toNat) :
    hostTarget a = .reserved := by
  rw [hostTarget_eq, if_neg, if_neg, if_neg, if_neg, if_neg] <;> omega

/-- Clearing `a[1:0]` keeps the word the address lies in. -/
theorem toNat_and_wordMask_div_four (a : HostAddr) : (a &&& 0x1FC#9).toNat / 4 = a.toNat / 4 := by
  have ha := a.isLt
  calc (a &&& 0x1FC#9).toNat / 2 ^ 2 = (a.toNat / 2 ^ 2) &&& (2 ^ 7 - 1) := Nat.and_div_two_pow
    _ = a.toNat / 2 ^ 2 % 2 ^ 7 := Nat.and_two_pow_sub_one_eq_mod _ 7
    _ = a.toNat / 2 ^ 2 := Nat.mod_eq_of_lt (by omega)

theorem hostTarget_and_wordMask (a : HostAddr) : hostTarget (a &&& 0x1FC#9) = hostTarget a := by
  rw [hostTarget_eq, hostTarget_eq, toNat_and_wordMask_div_four]

/-! ### The accesses, by their target -/

section
variable {s : State} {a b : HostAddr} {k : Nat}

theorem hostWord_of_pbw (ht : hostTarget a = .pbw k) : hostWord s a = BitVec.ofNat 32 (s.pb.memRead (4 * k) 4) := by
  simp only [hostWord, ht]

theorem hostWord_of_reserved (ht : hostTarget a = .reserved) : hostWord s a = 0#32 := by
  simp only [hostWord, ht]

theorem hostWrite_of_pbw_idle (w : Word) (ht : hostTarget a = .pbw k) (hb : s.busy = false) :
    s.hostWrite a w = s.storePb k w := by
  simp [State.hostWrite, ht, hb]

/-- RES is read-only and a reserved offset holds nothing. -/
theorem hostWrite_of_noEffect (w : Word) (ht : hostTarget a = .resLo ∨ hostTarget a = .resHi ∨ hostTarget a = .reserved) :
    s.hostWrite a w = s := by
  obtain ht | ht | ht := ht <;> simp only [State.hostWrite, ht]

theorem hostRead_congr (ht : hostTarget a = hostTarget b) : s.hostRead a = s.hostRead b := by
  simp only [State.hostRead, hostWord, ht]

theorem hostWrite_congr (w : Word) (ht : hostTarget a = hostTarget b) : s.hostWrite a w = s.hostWrite b w := by
  simp only [State.hostWrite, ht]

end

/-! ### The bytes of a word -/

/-- The bytes a store leaves in PBW[k] are the four slices of the word. -/
theorem Memory.readByte_writeWord_slice {m : Memory} (k : Nat) (w : Word) (hm : m.wf = true) (hk : k < 47) :
    (m.writeWord k w).readByte (4 * k) = w.extractLsb' 24 8 ∧
    (m.writeWord k w).readByte (4 * k + 1) = w.extractLsb' 16 8 ∧
    (m.writeWord k w).readByte (4 * k + 2) = w.extractLsb' 8 8 ∧
    (m.writeWord k w).readByte (4 * k + 3) = w.extractLsb' 0 8 := by
  rw [← ofNat_bits w 31 24, ← ofNat_bits w 23 16, ← ofNat_bits w 15 8, ← ofNat_bits w 7 0]
  exact Memory.readByte_writeWord k w hm hk

theorem toNat_append_byte {n : Nat} (x : BitVec n) (b : Byte) : (x ++ b).toNat = x.toNat * 2 ^ 8 + b.toNat := by
  rw [BitVec.toNat_append, ← Nat.shiftLeft_add_eq_or_of_lt b.isLt, Nat.shiftLeft_eq]

/-- A big-endian read of four bytes is the word of these bytes, the first most significant. -/
theorem Memory.memRead_four (m : Memory) (i : Nat) : m.memRead i 4 =
    (m.readByte i ++ m.readByte (i + 1) ++ m.readByte (i + 2) ++ m.readByte (i + 3)).toNat := by
  simp only [Memory.memRead, Memory.slice_succ, Memory.slice_zero, bigEndian_four, toNat_append_byte]

theorem exec_hdr (s : State) : exec .hdr s = .next (s.complete (s.pb.memRead 0 4) false) :=
  readHeader_eq s fun h => complete s h false

end Sys2Proof.Machine
end

section
/-! PROOFS. The statements about the host window (20_memory.md). -/

namespace Sys2Proof.Machine

/-- Settles O21: the idle write is the store, the busy one is dropped. -/
theorem pbWordWriteStoresFourBytes : Obligations.PbWordWriteStoresFourBytes := by
  intro s a w k rest hm h hk ha
  have ht : hostTarget a = .pbw k := (hostTarget_eq_pbw_iff a k).2 ⟨hk, ha⟩
  refine ⟨fun hb => ?_, fun hb => ?_⟩ <;> rw [step_of_hostWrite h]
  · obtain ⟨h0, h1, h2, h3⟩ := Memory.readByte_writeWord_slice k w hm (by omega)
    rw [hostWrite_of_pbw_idle (s := { s with agenda := rest }) w ht hb]
    exact ⟨s.pb.writeWord k w, rfl, h0, h1, h2, h3, Memory.readByte_writeWord_other s.pb k w⟩
  · rw [hostWrite_of_pbw_busy (s := { s with agenda := rest }) ht hb, State.dropPbWrite]

/-- Settles O22: the word read is the number its bytes spell, and HDR puts that of PBW[0] into RES. -/
theorem pbWordReadIsBigEndian : Obligations.PbWordReadIsBigEndian := by
  refine ⟨fun s a k rest h hk ha => ?_, fun s t h => ?_⟩
  · rw [step_of_hostRead h, hostWord_of_pbw ((hostTarget_eq_pbw_iff a k).2 ⟨hk, ha⟩), Memory.memRead_four,
      BitVec.ofNat_toNat, BitVec.setWidth_eq]
  · rw [exec_hdr, Memory.memRead_four] at h
    cases h
    rw [State.complete_res, BitVec.toNat_ofNat, Nat.mod_eq_of_lt (by omega)]

/-- Settles O24: both addresses select the same register. -/
theorem lowAddressBitsAreIgnored : Obligations.LowAddressBitsAreIgnored := by
  intro s a w rest
  have ht : hostTarget a = hostTarget (a &&& 0x1FC#9) := (hostTarget_and_wordMask a).symm
  refine ⟨?_, ?_⟩ <;> rw [step_of_cons rfl, step_of_cons rfl]
  · exact congrArg Host.Outcome.next (hostRead_congr ht)
  · exact congrArg Host.Outcome.next (hostWrite_congr w ht)

/-- Settles O23: a reserved offset reads 0, and the write's range is RES_LO, RES_HI and the reserved offsets. -/
theorem reservedOffsetsReadZeroAndIgnoreWrites : Obligations.ReservedOffsetsReadZeroAndIgnoreWrites := by
  refine fun s a w rest => ⟨fun h ha => ?_, fun h ha => ?_⟩
  · rw [step_of_hostRead h, hostWord_of_reserved (hostTarget_of_reserved ha)]
  · rw [step_of_hostWrite h, hostWrite_of_noEffect w]
    by_cases hlo : a.toNat / 4 = 2
    · exact .inl (hostTarget_of_resLo hlo)
    · by_cases hhi : a.toNat / 4 = 3
      · exact .inr (.inl (hostTarget_of_resHi hhi))
      · exact .inr (.inr (hostTarget_of_reserved (by omega)))

/-- Settles O25: the read's turn writes only `rdata`. -/
theorem hostReadHasNoSideEffect : Obligations.HostReadHasNoSideEffect := by
  intro s t a rest h hstep
  rw [step_of_hostRead h] at hstep
  cases hstep
  rfl

end Sys2Proof.Machine
end

section
/-! SUPPORT. The opcode map and the fields of a command word: what the decoder answers by the row of the map, and the
fields of an encoded word (30_encoding.md R71 to R79). -/

namespace Sys2Proof.Machine

open Sys2Proof.Safety

/-! ### The fields of a word -/

theorem opcField_eq_opcOf (w : Word) : opcField w = opcOf w :=
  Nat.mod_eq_of_lt (by have := w.isLt; omega)

theorem bits_23_0 (v : Nat) : bits v 23 0 = v % 2 ^ 24 := by rw [bits_eq, pow_zero, Nat.div_one]

theorem bits_7_0 (v : Nat) : bits v 7 0 = v % 2 ^ 8 := by rw [bits_eq, pow_zero, Nat.div_one]

/-! ### The rows of the opcode map (30_encoding.md R75) -/

theorem formOf_of_mem_c0Map : ∀ row ∈ c0Map, formOf row.1 = some (.c0 row.2) := by decide

theorem encoding_of_mem_c0Map {o : Nat} {i : Instr} (hrow : (o, i) ∈ c0Map) :
    opcode i = o ∧ operandBits i = 0 ∧ WellFormed i = true := by
  have h : ∀ row ∈ c0Map, opcode row.2 = row.1 ∧ operandBits row.2 = 0 ∧ WellFormed row.2 = true := by decide
  exact h _ hrow

theorem encoding_of_mem_crMap : ∀ row ∈ crMap, ∀ a b, opcode (row.2 a b) = row.1 ∧
    operandBits (row.2 a b) = a * 2 ^ 8 + b ∧ (WellFormed (row.2 a b) = true ↔ a < 2 ^ 8 ∧ b < 2 ^ 8) := by
  simp [crMap, opcode, operandBits, WellFormed, fitsByte]

/-- Every command stands in one row of the map. -/
theorem exists_row (i : Instr) : (opcode i, i) ∈ c0Map ∨ ∃ row ∈ crMap, ∃ a b, i = row.2 a b := by
  cases i
  case crc32 a b => exact .inr ⟨(0x60, .crc32), by simp [crMap], a, b, rfl⟩
  case crcchk a b => exact .inr ⟨(0x61, .crcchk), by simp [crMap], a, b, rfl⟩
  all_goals exact .inl (by decide)

/-- An OPC value that selects a form has a row of the map. -/
theorem mem_map_of_formOf {o : Nat} {f : Form} (h : formOf o = some f) :
    (∃ i, (o, i) ∈ c0Map) ∨ ∃ row ∈ crMap, o = row.1 := by
  unfold formOf at h
  split at h
  case h_35 => exact .inr ⟨(0x60, .crc32), by simp [crMap], rfl⟩
  case h_36 => exact .inr ⟨(0x61, .crcchk), by simp [crMap], rfl⟩
  case h_37 => cases h
  all_goals exact .inl (by simp [c0Map])

theorem not_reservedOpc_of_mem_c0Map : ∀ row ∈ c0Map, ¬ reservedOpc row.1 := by
  unfold reservedOpc; decide

theorem not_reservedOpc_of_mem_crMap : ∀ row ∈ crMap, ¬ reservedOpc row.1 := by
  simp [crMap, reservedOpc]

/-- The reserved ranges of R77 hold no row of the map. -/
theorem formOf_of_reservedOpc {o : Nat} (h : reservedOpc o) : formOf o = none := by
  cases hf : formOf o with
  | none => rfl
  | some f =>
    obtain ⟨i, hrow⟩ | ⟨row, hrow, rfl⟩ := mem_map_of_formOf hf
    · exact absurd h (not_reservedOpc_of_mem_c0Map _ hrow)
    · exact absurd h (not_reservedOpc_of_mem_crMap row hrow)

/-! ### The decoder by the row of the map (30_encoding.md R76) -/

section
variable {w : Word}

theorem decode_of_reservedOpc (h : reservedOpc (opcOf w)) : decode w = .illegal .reservedOpcode := by
  simp only [decode, opcField_eq_opcOf, formOf_of_reservedOpc h]

theorem decode_of_mem_c0Map {row : Nat × Instr} (hrow : row ∈ c0Map) (ho : opcOf w = row.1) :
    decode w = if w.toNat % 2 ^ 24 = 0 then .command row.2 else .illegal .operandBitsNotZero := by
  simp only [decode, opcField_eq_opcOf, ho, formOf_of_mem_c0Map row hrow, bits_23_0]

theorem decode_of_mem_crMap {row : Nat × (Nat → Nat → Instr)} (hrow : row ∈ crMap) (ho : opcOf w = row.1) :
    decode w = if w.toNat / 2 ^ 16 % 2 ^ 8 = 0
      then .command (row.2 (w.toNat / 2 ^ 8 % 2 ^ 8) (w.toNat % 2 ^ 8)) else .illegal .reservedFieldNotZero := by
  simp only [crMap, List.mem_cons, List.not_mem_nil, or_false] at hrow
  obtain rfl | rfl := hrow <;>
    simp only [decode, opcField_eq_opcOf, ho, formOf, rsvField, aField, bField, bits_7_0] <;> rfl

/-- What a word that decodes is: a row of the map with its unused bits zero, and the command of that row. -/
theorem decode_command_cases {i : Instr} (h : decode w = .command i) :
    ((opcOf w, i) ∈ c0Map ∧ w.toNat % 2 ^ 24 = 0) ∨
    (∃ row ∈ crMap, opcOf w = row.1 ∧ w.toNat / 2 ^ 16 % 2 ^ 8 = 0 ∧
      i = row.2 (w.toNat / 2 ^ 8 % 2 ^ 8) (w.toNat % 2 ^ 8)) := by
  cases hf : formOf (opcOf w) with
  | none => simp only [decode, opcField_eq_opcOf, hf] at h; cases h
  | some f =>
    obtain ⟨j, hrow⟩ | ⟨row, hrow, ho⟩ := mem_map_of_formOf hf
    · rw [decode_of_mem_c0Map hrow rfl] at h
      split_ifs at h with h0
      cases h
      exact .inl ⟨hrow, h0⟩
    · rw [decode_of_mem_crMap hrow ho] at h
      split_ifs at h with h0
      cases h
      exact .inr ⟨row, hrow, ho, h0, rfl⟩

end

/-! ### The encoded word (30_encoding.md R79) -/

theorem opcode_lt (i : Instr) : opcode i < 2 ^ 8 := by cases i <;> simp [opcode]

theorem operandBits_lt {i : Instr} (hi : WellFormed i = true) : operandBits i < 2 ^ 16 := by
  obtain hrow | ⟨row, hrow, a, b, rfl⟩ := exists_row i
  · obtain ⟨_, hbits, _⟩ := encoding_of_mem_c0Map hrow
    omega
  · obtain ⟨_, hbits, hwf⟩ := encoding_of_mem_crMap row hrow a b
    obtain ⟨ha, hb⟩ := hwf.1 hi
    omega

/-- The encoded word is the sum of its fields: nothing of it is cut off. -/
theorem toNat_encode {i : Instr} (hi : WellFormed i = true) :
    (encode i).toNat = opcode i * 2 ^ 24 + operandBits i := by
  have ho := opcode_lt i
  have hb := operandBits_lt hi
  rw [encode, BitVec.toNat_ofNat]
  omega

theorem opcOf_encode {i : Instr} (hi : WellFormed i = true) : opcOf (encode i) = opcode i := by
  have hb := operandBits_lt hi
  rw [opcOf, toNat_encode hi]
  omega

/-- A word whose fields are those of the command is its encoding. -/
theorem encode_eq_of_fields {w : Word} {i : Instr} (ho : opcOf w = opcode i) (hb : w.toNat % 2 ^ 24 = operandBits i) :
    encode i = w := by
  apply BitVec.eq_of_toNat_eq
  have hw := w.isLt
  rw [encode, BitVec.toNat_ofNat, ← ho, ← hb, opcOf]
  omega

end Sys2Proof.Machine
end

section
/-! PROOFS. The statements about the decoder and the encoder (30_encoding.md). -/

namespace Sys2Proof.Machine

/-- Settles O1, by the command's row of the opcode map and the fields of its word. -/
theorem encodedCommandDecodesToItself : Obligations.EncodedCommandDecodesToItself := by
  intro i hi
  have hopc := opcOf_encode hi
  have hword := toNat_encode hi
  obtain hrow | ⟨row, hrow, a, b, rfl⟩ := exists_row i
  · obtain ⟨_, hbits, _⟩ := encoding_of_mem_c0Map hrow
    rw [decode_of_mem_c0Map hrow hopc, if_pos (by omega)]
  · obtain ⟨ho, hbits, hwf⟩ := encoding_of_mem_crMap row hrow a b
    obtain ⟨ha, hb⟩ := hwf.1 hi
    have ha' : (encode (row.2 a b)).toNat / 2 ^ 8 % 2 ^ 8 = a := by omega
    have hb' : (encode (row.2 a b)).toNat % 2 ^ 8 = b := by omega
    rw [decode_of_mem_crMap hrow (hopc.trans ho), if_pos (by omega), ha', hb']

/-- Settles O2: the row and the fields of the word are those of the command it decodes to. -/
theorem decodedWordIsItsEncoding : Obligations.DecodedWordIsItsEncoding := by
  intro w i h
  obtain ⟨hrow, h0⟩ | ⟨row, hrow, hopc, hrsv, rfl⟩ := decode_command_cases h
  · obtain ⟨ho, hbits, hwf⟩ := encoding_of_mem_c0Map hrow
    exact ⟨hwf, encode_eq_of_fields ho.symm (h0.trans hbits.symm)⟩
  · obtain ⟨ho, hbits, hwf⟩ := encoding_of_mem_crMap row hrow (w.toNat / 2 ^ 8 % 2 ^ 8) (w.toNat % 2 ^ 8)
    exact ⟨hwf.2 (by omega), encode_eq_of_fields (hopc.trans ho.symm) (by omega)⟩

/-- Settles O3: the three kinds of OPC value. -/
theorem decoderFollowsTheOpcodeMap : Obligations.DecoderFollowsTheOpcodeMap := fun _ =>
  ⟨decode_of_reservedOpc, fun _ => decode_of_mem_c0Map, fun _ => decode_of_mem_crMap⟩

/-- Settles O4, by running the decoder on the twelve words. -/
theorem sampleWordsDecodeAsWrittenOut : Obligations.SampleWordsDecodeAsWrittenOut := by
  unfold Obligations.SampleWordsDecodeAsWrittenOut
  decide

end Sys2Proof.Machine
end

section
/-! SUPPORT. A command's end by what it reads: from two states with the same PB (and the same RES, for NANOS) every
command but NOP ends in the same way (70_reset_and_hazards.md R233). -/

namespace Sys2Proof.Machine

/-- Both outcomes are the same end of a command that writes RES (or the same fault), one taken from `s`, the other
from `s'`. -/
inductive SameEnd (s s' : State) : Outcome → Outcome → Prop where
  | complete (r : Nat) (p : Bool) : SameEnd s s' (.next (s.complete r p)) (.next (s'.complete r p))
  | raise (e : ErrCode) : SameEnd s s' (.next (s.raise e)) (.next (s'.raise e))
  | fault (f : Fault) : SameEnd s s' (.fault f) (.fault f)

/-- The same end leaves the same results. -/
theorem SameEnd.results {s s' t t' : State} (h : SameEnd s s' (.next t) (.next t')) :
    t.res = t'.res ∧ t.p = t'.p ∧ t.err = t'.err := by
  cases h with
  | complete r p => exact ⟨rfl, rfl, rfl⟩
  | raise e => exact ⟨rfl, rfl, rfl⟩

theorem SameEnd.ite {s s' : State} {c : Prop} [Decidable c] {o₁ o₂ o₁' o₂' : Outcome} (h₁ : SameEnd s s' o₁ o₁')
    (h₂ : SameEnd s s' o₂ o₂') : SameEnd s s' (if c then o₁ else o₂) (if c then o₁' else o₂') := by
  split
  · exact h₁
  · exact h₂

theorem sameEnd_execNanos {s s' : State} (hres : s.res = s'.res) : SameEnd s s' (execNanos s) (execNanos s') := by
  rw [execNanos, execNanos, hres]
  exact .ite (.raise _) (.complete _ _)

section
variable {s s' : State} (hpb : s.pb = s'.pb)
include hpb

/-! ### The shared operations -/

theorem sameEnd_readBytes {i n : Nat} {k k' : List Byte → Outcome} (hk : ∀ bs, SameEnd s s' (k bs) (k' bs)) :
    SameEnd s s' (readBytes s i n k) (readBytes s' i n k') := by
  rw [readBytes, readBytes, hpb]
  exact .ite (hk _) (.fault _)

theorem sameEnd_memRead {i n : Nat} {k k' : Nat → Outcome} (hk : ∀ v, SameEnd s s' (k v) (k' v)) :
    SameEnd s s' (memRead s i n k) (memRead s' i n k') :=
  sameEnd_readBytes hpb fun bs => hk (bigEndian bs)

theorem sameEnd_readHeader {k k' : Nat → Outcome} (hk : ∀ h, SameEnd s s' (k h) (k' h)) :
    SameEnd s s' (readHeader s k) (readHeader s' k') :=
  sameEnd_memRead hpb hk

theorem sameEnd_afCheck {k k' : Nat → Outcome} (hk : ∀ l, SameEnd s s' (k l) (k' l)) :
    SameEnd s s' (afCheck s k) (afCheck s' k') :=
  sameEnd_readHeader hpb fun _ => .ite (.raise _) (sameEnd_memRead hpb fun l => .ite (.raise _) (hk l))

theorem sameEnd_afFlags {k k' : Nat → Outcome} (hk : ∀ f, SameEnd s s' (k f) (k' f)) :
    SameEnd s s' (afFlags s k) (afFlags s' k') :=
  sameEnd_afCheck hpb fun _ => sameEnd_memRead hpb hk

theorem sameEnd_tpdCheck {f : Nat} {k k' : Option Nat → Outcome} (hk : ∀ len, SameEnd s s' (k len) (k' len)) :
    SameEnd s s' (tpdCheck s f k) (tpdCheck s' f k') :=
  .ite (sameEnd_memRead hpb fun len => .ite (.raise _) (hk (some len))) (hk none)

theorem sameEnd_payloadWindow {k k' : Nat → Nat → Outcome}
    (hk : ∀ start pl, SameEnd s s' (k start pl) (k' start pl)) :
    SameEnd s s' (payloadWindow s k) (payloadWindow s' k') :=
  sameEnd_readHeader hpb fun h =>
    .ite (sameEnd_memRead hpb fun _ => .ite (.raise _) (hk _ (hasPl h))) (hk _ (hasPl h))

theorem sameEnd_decodePcr {o : Nat} {k k' : Nat → Outcome} (hk : ∀ t, SameEnd s s' (k t) (k' t)) :
    SameEnd s s' (decodePcr s o k) (decodePcr s' o k') :=
  sameEnd_memRead hpb fun high => sameEnd_memRead hpb fun low => hk (pcrValue high low)

theorem sameEnd_crcCalc {start len : Nat} {k k' : Word → Outcome} (hk : ∀ c, SameEnd s s' (k c) (k' c)) :
    SameEnd s s' (crcCalc s start len k) (crcCalc s' start len k') :=
  .ite (hk 0#32) (sameEnd_readBytes hpb fun bs => hk (crcBytes bs))

/-! ### The commands -/

/-- A command that completes with a function of the header word. -/
theorem sameEnd_header (r : Nat → Nat) (p : Nat → Bool) :
    SameEnd s s' (readHeader s fun h => complete s (r h) (p h)) (readHeader s' fun h => complete s' (r h) (p h)) :=
  sameEnd_readHeader hpb fun h => .complete (r h) (p h)

/-- A command that completes with a function of the flags byte. -/
theorem sameEnd_flags (r : Nat → Nat) (p : Nat → Bool) :
    SameEnd s s' (afFlags s fun f => complete s (r f) (p f)) (afFlags s' fun f => complete s' (r f) (p f)) :=
  sameEnd_afFlags hpb fun f => .complete (r f) (p f)

/-- PCR and OPCR, whatever the offset of their window. -/
theorem sameEnd_timestamp (o : Nat → Nat) :
    SameEnd s s'
      (afFlags s fun f => if fPcr f = 1 then decodePcr s (o f) fun t => complete s t true else complete s 0 false)
      (afFlags s' fun f =>
        if fPcr f = 1 then decodePcr s' (o f) fun t => complete s' t true else complete s' 0 false) :=
  sameEnd_afFlags hpb fun _ => .ite (sameEnd_decodePcr hpb fun t => .complete t true) (.complete 0 false)

theorem sameEnd_execTpdlen : SameEnd s s' (execTpdlen s) (execTpdlen s') :=
  sameEnd_afFlags hpb fun _ => sameEnd_tpdCheck hpb fun
    | some len => .complete len true
    | none => .complete 0 false

/-- Every command but NOP ends by what PB holds, NANOS by what RES holds. -/
theorem sameEnd_exec (i : Instr) (hnop : i ≠ .nop) (hres : i = .nanos → s.res = s'.res) :
    SameEnd s s' (exec i s) (exec i s') := by
  cases i with
  | nop => exact absurd rfl hnop
  | hdr => exact sameEnd_header hpb id fun _ => false
  | sync => exact sameEnd_header hpb hSync fun _ => false
  | tei => exact sameEnd_header hpb hTei fun h => hTei h == 1
  | pusi => exact sameEnd_header hpb hPusi fun h => hPusi h == 1
  | tpri => exact sameEnd_header hpb hTpri fun h => hTpri h == 1
  | pid => exact sameEnd_header hpb hPid fun _ => false
  | tsc => exact sameEnd_header hpb hTsc fun _ => false
  | afc => exact sameEnd_header hpb hAfc fun _ => false
  | cc => exact sameEnd_header hpb hCc fun _ => false
  | hasaf => exact sameEnd_header hpb hasAf fun h => hasAf h == 1
  | haspl => exact sameEnd_header hpb hasPl fun h => hasPl h == 1
  | aflen => exact sameEnd_afCheck hpb fun l => .complete l false
  | afflags => exact sameEnd_flags hpb id fun _ => false
  | disc => exact sameEnd_flags hpb fDisc fun f => fDisc f == 1
  | rai => exact sameEnd_flags hpb fRai fun f => fRai f == 1
  | espri => exact sameEnd_flags hpb fEspri fun f => fEspri f == 1
  | haspcr => exact sameEnd_flags hpb fPcr fun f => fPcr f == 1
  | hasopcr => exact sameEnd_flags hpb fOpcr fun f => fOpcr f == 1
  | hasspl => exact sameEnd_flags hpb fSpl fun f => fSpl f == 1
  | hastpd => exact sameEnd_flags hpb fTpd fun f => fTpd f == 1
  | hasext => exact sameEnd_flags hpb fExt fun f => fExt f == 1
  | pcr => exact sameEnd_timestamp hpb offPcr
  | opcr => exact sameEnd_timestamp hpb offOpcr
  | splice =>
    exact sameEnd_afFlags hpb fun _ => .ite (sameEnd_memRead hpb fun v => .complete v true) (.complete 0 false)
  | tpdlen => exact sameEnd_execTpdlen hpb
  | offpcr => exact sameEnd_flags hpb offPcr fun f => fPcr f == 1
  | offopcr => exact sameEnd_flags hpb offOpcr fun f => fOpcr f == 1
  | offspl => exact sameEnd_flags hpb offSpl fun f => fSpl f == 1
  | offtpd => exact sameEnd_flags hpb offTpd fun f => fTpd f == 1
  | offext => exact sameEnd_afFlags hpb fun _ => sameEnd_tpdCheck hpb fun _ => .complete _ _
  | ploff => exact sameEnd_payloadWindow hpb fun start pl => .complete start (pl == 1)
  | pllen => exact sameEnd_payloadWindow hpb fun start pl => .complete (188 - start) (pl == 1)
  | nanos => exact sameEnd_execNanos (hres rfl)
  | crc32 => exact .ite (.raise _) (sameEnd_crcCalc hpb fun _ => .complete _ _)
  | crcchk =>
    exact .ite (.raise _) (.ite (.complete 0 false)
      (sameEnd_crcCalc hpb fun _ => sameEnd_memRead hpb fun _ => .complete _ _))

end

/-! ### The next states -/

theorem Ends.next {s : State} {o : Outcome} (h : Ends s o) : ∃ t, o = .next t := by
  obtain ⟨r, p, _, h⟩ | ⟨p, h⟩ | ⟨e, _, h⟩ := h
  · exact ⟨_, h⟩
  · exact ⟨_, h⟩
  · exact ⟨_, h⟩

theorem completed_exec {i : Instr} {s t : State} (h : exec i s = .next t) : Completed s t :=
  (h ▸ ends_exec i s).completed

theorem exec_nop (s : State) : exec .nop s = .next (s.completeKeep false) := rfl

/-- From states with the same PB and RES a command leaves the same results, NOP included. -/
theorem results_exec {i : Instr} {s s' t t' : State} (hpb : s.pb = s'.pb) (hres : s.res = s'.res)
    (h : exec i s = .next t) (h' : exec i s' = .next t') : t.res = t'.res ∧ t.p = t'.p ∧ t.err = t'.err := by
  by_cases hnop : i = .nop
  · subst hnop
    rw [exec_nop] at h h'
    cases h
    cases h'
    exact ⟨hres, rfl, rfl⟩
  · have hsame := sameEnd_exec hpb i hnop fun _ => hres
    rw [h, h'] at hsame
    exact hsame.results

end Sys2Proof.Machine
end

section
/-! SUPPORT. EXEC run turn by turn: acceptance, the polls, completion, the last poll (30_encoding.md R80). -/

namespace Sys2Proof.Machine

open Sys2Proof.Safety

theorem step_of_illegalPending {s : State} {w : Word} {why : Reject} {rest : List Turn} (hp : s.pend = some w)
    (hd : decode w = .illegal why) (hturn : EngineTurnIs s rest) :
    step s = .next (failed { s with agenda := rest } .ill) := by
  rw [step_of_engineTurnIs hturn]
  exact engineTurn_of_illegal hp hd

theorem step_of_commandPending {s : State} {w : Word} {i : Instr} {rest : List Turn} (hp : s.pend = some w)
    (hd : decode w = .command i) (hturn : EngineTurnIs s rest) : step s = exec i { s with agenda := rest } := by
  rw [step_of_engineTurnIs hturn]
  exact engineTurn_of_command hp hd

/-- An idle engine accepts the word written to CMD (40_control.md R101). -/
theorem step_of_opWr_cmd {s : State} {w : Word} {rest : List Turn} (h : s.agenda = opWr 0x000 w :: rest)
    (hb : s.busy = false) : step s = .next (State.accept { s with agenda := rest } w) := by
  have ht : hostTarget (BitVec.ofNat 9 0x000) = .cmd := rfl
  rw [step_of_hostWrite h]
  simp only [State.hostWrite, ht, hb, Bool.false_eq_true, if_false]

/-- The state after host reads: the word last read and the turns still to come. -/
def State.polled (s : State) (w : Word) (rest : List Turn) : State := { s with rdata := w, agenda := rest }

@[simp] theorem State.polled_rdata (s : State) (w : Word) (rest : List Turn) : (s.polled w rest).rdata = w := rfl

@[simp] theorem State.polled_polled (s : State) (w w' : Word) (rest rest' : List Turn) :
    (s.polled w rest).polled w' rest' = s.polled w' rest' := rfl

@[simp] theorem statusWord_polled (s : State) (w : Word) (rest : List Turn) :
    statusWord (s.polled w rest) = statusWord s := rfl

/-- Acceptance and polls change nothing that the command reads. -/
theorem results_exec_accept {s t v : State} {w d : Word} {i : Instr} {rest : List Turn}
    (ht : exec i ((s.accept w).polled d rest) = .next t) (hv : exec i s = .next v) :
    t.res = v.res ∧ t.p = v.p ∧ t.err = v.err :=
  results_exec (s := (s.accept w).polled d rest) (s' := s) rfl rfl ht hv

/-- A poll reads STATUS and changes nothing of the engine. -/
theorem step_of_poll {s : State} {rest : List Turn} (h : s.agenda = opRd 0x004 :: rest) :
    step s = .next (s.polled (statusWord s) rest) := step_of_hostRead h

theorem statusWord_bit_zero (s : State) : (statusWord s).getLsbD 0 = s.busy := by
  obtain ⟨hbusy, _⟩ := statusWord_fields s
  exact hbusy

/-- Polls leave the engine alone, so each of them reads the same STATUS. -/
theorem run_polls {rest : List Turn} : ∀ (n : Nat) {s : State}, s.agenda = List.replicate n (opRd 0x004) ++ rest →
    core.run n s = .next (s.polled (if n = 0 then s.rdata else statusWord s) rest)
  | 0, s, h => by
    have h : s.agenda = rest := h
    subst h
    rfl
  | n + 1, s, h => by
    rw [List.replicate_succ, List.cons_append] at h
    rw [run_succ n (step_of_poll h), run_polls n rfl]
    simp

/-- EXEC up to the completion: the word is accepted, and its last poll read BUSY = 1. -/
theorem run_acceptance_polls {s : State} {w : Word} {polls : Nat} {rest : List Turn} (hbusy : s.busy = false)
    (hagenda : s.agenda = opWr 0x000 w :: (opWait polls ++ rest)) :
    ∃ d, core.run (1 + polls) s = .next ((s.accept w).polled d (.engine :: opRd 0x004 :: rest)) ∧
      (0 < polls → d.getLsbD 0 = true) := by
  have hpolls := run_polls (rest := .engine :: opRd 0x004 :: rest) polls
    (s := State.accept { s with agenda := opWait polls ++ rest } w) (by simp [opWait])
  rw [Nat.add_comm, run_succ polls (step_of_opWr_cmd hagenda hbusy)]
  refine ⟨_, hpolls, fun h0 => ?_⟩
  rw [if_neg (by omega), statusWord_bit_zero, State.accept_busy]

/-- The rest of EXEC: the completion and the poll that sees it. -/
theorem run_completion_poll {s t : State} {w : Word} {i : Instr} {rest : List Turn} (hp : s.pend = some w)
    (hd : decode w = .command i) (hagenda : s.agenda = .engine :: opRd 0x004 :: rest)
    (ht : exec i { s with agenda := opRd 0x004 :: rest } = .next t) :
    core.run 2 s = .next (t.polled (statusWord t) rest) := by
  have hagenda' : t.agenda = opRd 0x004 :: rest := (completed_exec ht).agenda
  rw [run_succ 1 ((step_of_commandPending hp hd (.inl hagenda)).trans ht), run_succ 0 (step_of_poll hagenda'), run_zero]

/-- A word written to an idle engine and polled runs the command it decodes to. -/
theorem run_word {s : State} {w : Word} {i : Instr} {polls : Nat} {rest : List Turn} (hd : decode w = .command i)
    (hbusy : s.busy = false) (hagenda : s.agenda = opWr 0x000 w :: (opWait polls ++ rest)) :
    ∃ b v t : State, core.run (1 + polls) s = .next b ∧ b.busy = true ∧ b.pend = some w ∧
      (0 < polls → b.rdata.getLsbD 0 = true) ∧ exec i s = .next v ∧
      core.run (polls + 3) s = .next t ∧ t.res = v.res ∧ t.p = v.p ∧ t.err = v.err ∧ t.pb = s.pb ∧
      t.cmd = w ∧ t.busy = false ∧ t.rdata.getLsbD 0 = false ∧ t.agenda = rest := by
  obtain ⟨d, hpolls, hread⟩ := run_acceptance_polls hbusy hagenda
  obtain ⟨v, hv⟩ := (ends_exec i s).next
  obtain ⟨t, ht⟩ := (ends_exec i ((s.accept w).polled d (opRd 0x004 :: rest))).next
  have done := completed_exec ht
  obtain ⟨hres, hp, herr⟩ := results_exec_accept ht hv
  have hlast : (statusWord t).getLsbD 0 = false := (statusWord_bit_zero t).trans done.busy
  refine ⟨_, v, t.polled (statusWord t) rest, hpolls, rfl, rfl, hread, hv, ?_, hres, hp, herr, done.pb, done.cmd,
    done.busy, hlast, rfl⟩
  rw [show polls + 3 = 1 + polls + 2 by omega, run_add hpolls]
  exact run_completion_poll rfl hd rfl ht

end Sys2Proof.Machine
end

section
/-! PROOFS. The statements about illegal encodings and the host's EXEC (30_encoding.md R77, R80). -/

namespace Sys2Proof.Machine

open Sys2Proof.Safety

/-- Settles O7: the decoder rejects each of these words, and a command other than NOP and NANOS ends by what PB
holds. -/
theorem reservedEncodingsRaiseIll : Obligations.ReservedEncodingsRaiseIll := by
  refine ⟨fun s w rest hp hturn hw => ?_, exec_nop, fun i s r hnop hnanos => ?_⟩
  · obtain ho | ⟨row, hrow, ho, h0⟩ | ⟨row, hrow, ho, h0⟩ := hw
    · exact step_of_illegalPending hp (decode_of_reservedOpc ho) hturn
    · exact step_of_illegalPending hp ((decode_of_mem_c0Map hrow ho).trans (if_neg h0)) hturn
    · exact step_of_illegalPending hp ((decode_of_mem_crMap hrow ho).trans (if_neg h0)) hturn
  · obtain ⟨t, ht⟩ := (ends_exec i s).next
    obtain ⟨u, hu⟩ := (ends_exec i { s with res := r }).next
    have hsame := sameEnd_exec (s := s) (s' := { s with res := r }) rfl i hnop fun h => absurd h hnanos
    rw [ht, hu] at hsame
    obtain ⟨hres, _⟩ := hsame.results
    exact ⟨t, u, ht, hu, hres⟩

/-- Settles O34: the encoded word decodes to its command (O1), so writing it and polling runs that command. -/
theorem execNotationRunsTheCommand : Obligations.ExecNotationRunsTheCommand := by
  intro s i polls rest hwf hbusy hagenda
  rw [opExec, List.cons_append] at hagenda
  exact run_word (encodedCommandDecodesToItself i hwf) hbusy hagenda

end Sys2Proof.Machine
end

section
/-! SUPPORT. A command's end by the bytes it may read: from two states that agree on them (and on RES, for NANOS) every
command but NOP ends in the same way (40_control.md R106, 70_reset_and_hazards.md R233). -/

namespace Sys2Proof.Machine

open Sys2Proof.Safety

/-! ### The cascading offsets as sums of the present sub-fields (42_adaptation.md R132) -/

theorem offSpl_flags (s : State) : offSpl (s.pb.readByte 5).toNat = offsetOf s 2 := by
  simp only [offSpl, offOpcr, offPcr, fPcr, fOpcr, bit_toNat, offsetOf, subFields, presentLength, flagOf, byteBit]
  cases (s.pb.readByte 5).getLsbD 4 <;> cases (s.pb.readByte 5).getLsbD 3 <;> rfl

theorem offTpd_flags (s : State) : offTpd (s.pb.readByte 5).toNat = offsetOf s 3 := by
  have h : offsetOf s 3 = offsetOf s 2 + (flagOf s 2).toNat := by
    cases hf : flagOf s 2 <;> simp [offsetOf, subFields, presentLength, hf, Nat.add_assoc]
  rw [h, ← offSpl_flags, offTpd, fSpl, bit_toNat, Nat.one_mul, flagOf, byteBit]

theorem offOpcr_of_fPcr {f : Nat} (h : fPcr f = 1) : offOpcr f = 12 := by rw [offOpcr, h]; rfl

/-! ### Agreement on a list of bytes -/

/-- The two packet buffers hold the same bytes at the indices `js`. -/
def AgreeOn (js : List Nat) (s s' : State) : Prop := ∀ j ∈ js, s.pb.readByte j = s'.pb.readByte j

/-- The byte range of format CR, as the list of its indices. -/
theorem mem_range_map_add {i n j : Nat} (h1 : i ≤ j) (h2 : j < i + n) : j ∈ (List.range n).map (i + ·) :=
  List.mem_map.2 ⟨j - i, List.mem_range.2 (by omega), Nat.add_sub_cancel' h1⟩

section
variable {s s' : State} {js : List Nat}

theorem sameEnd_readBytes_of_agreeOn (h : AgreeOn js s s') {i n : Nat} (hjs : ∀ j, i ≤ j → j < i + n → j ∈ js)
    {k k' : List Byte → Outcome} (hk : ∀ bs, SameEnd s s' (k bs) (k' bs)) :
    SameEnd s s' (readBytes s i n k) (readBytes s' i n k') := by
  have hslice : s.pb.slice i n = s'.pb.slice i n := Memory.slice_congr fun j h1 h2 => h j (hjs j h1 h2)
  rw [readBytes, readBytes, hslice]
  exact .ite (hk _) (.fault _)

theorem sameEnd_memRead_of_agreeOn (h : AgreeOn js s s') {i n : Nat} (hjs : ∀ j, i ≤ j → j < i + n → j ∈ js)
    {k k' : Nat → Outcome} (hk : ∀ v, SameEnd s s' (k v) (k' v)) :
    SameEnd s s' (memRead s i n k) (memRead s' i n k') :=
  sameEnd_readBytes_of_agreeOn h hjs fun bs => hk (bigEndian bs)

/-- The read of one byte. -/
theorem sameEnd_memRead_one_of_agreeOn (h : AgreeOn js s s') {i : Nat} (hi : i ∈ js) {k k' : Nat → Outcome}
    (hk : ∀ v, SameEnd s s' (k v) (k' v)) : SameEnd s s' (memRead s i 1 k) (memRead s' i 1 k') := by
  refine sameEnd_memRead_of_agreeOn h (fun j h1 h2 => ?_) hk
  obtain rfl : i = j := by omega
  exact hi

/-! ### The shared operations -/

/-- A command that completes with a function of the header word. -/
theorem sameEnd_header_of_agreeOn (h : AgreeOn [0, 1, 2, 3] s s') (r : Nat → Nat) (p : Nat → Bool) :
    SameEnd s s' (readHeader s fun v => complete s (r v) (p v)) (readHeader s' fun v => complete s' (r v) (p v)) :=
  sameEnd_memRead_of_agreeOn h (by simp; omega) fun v => .complete (r v) (p v)

/-- AF_CHECK reads byte 3 and, with an adaptation field, byte 4. -/
theorem sameEnd_afCheck_of_agreeOn (h : AgreeOn (3 :: 4 :: js) s s') {k k' : Nat → Outcome}
    (hk : ∀ l, SameEnd s s' (k l) (k' l)) : SameEnd s s' (afCheck s k) (afCheck s' k') := by
  have h3 : s.pb.readByte 3 = s'.pb.readByte 3 := h 3 (by simp)
  rw [afCheck, afCheck, readHeader_eq, readHeader_eq, hasAf_header, hasAf_header, h3]
  exact .ite (.raise _) (sameEnd_memRead_one_of_agreeOn h (by simp) fun l => .ite (.raise _) (hk l))

/-- The rest of a flags command runs on the flags byte the two states share. -/
theorem sameEnd_afFlags_of_agreeOn (h : AgreeOn (3 :: 4 :: 5 :: js) s s') {k k' : Nat → Outcome}
    (hk : SameEnd s s' (k (s.pb.readByte 5).toNat) (k' (s.pb.readByte 5).toNat)) :
    SameEnd s s' (afFlags s k) (afFlags s' k') := by
  have h5 : s.pb.readByte 5 = s'.pb.readByte 5 := h 5 (by simp)
  rw [afFlags_eq, afFlags_eq, ← h5]
  exact sameEnd_afCheck_of_agreeOn h fun _ => hk

/-- A command that completes with a function of the flags byte. -/
theorem sameEnd_flags_of_agreeOn (h : AgreeOn [3, 4, 5] s s') (r : Nat → Nat) (p : Nat → Bool) :
    SameEnd s s' (afFlags s fun f => complete s (r f) (p f)) (afFlags s' fun f => complete s' (r f) (p f)) :=
  sameEnd_afFlags_of_agreeOn h (.complete _ _)

/-- The commands that make TPD_CHECK read its length byte too. -/
theorem sameEnd_tpdCheck_of_agreeOn (h : AgreeOn [3, 4, 5, offsetOf s 3] s s') {k k' : Nat → Option Nat → Outcome}
    (hk : ∀ f len, SameEnd s s' (k f len) (k' f len)) :
    SameEnd s s' (afFlags s fun f => tpdCheck s f (k f)) (afFlags s' fun f => tpdCheck s' f (k' f)) := by
  refine sameEnd_afFlags_of_agreeOn h (.ite ?_ (hk _ none))
  exact sameEnd_memRead_one_of_agreeOn h (by simp [offTpd_flags]) fun len => .ite (.raise _) (hk _ (some len))

/-- The payload-window commands read byte 3 and, with an adaptation field, byte 4. -/
theorem sameEnd_payloadWindow_of_agreeOn (h : AgreeOn [3, 4] s s') {k k' : Nat → Nat → Outcome}
    (hk : ∀ start pl, SameEnd s s' (k start pl) (k' start pl)) :
    SameEnd s s' (payloadWindow s k) (payloadWindow s' k') := by
  have h3 : s.pb.readByte 3 = s'.pb.readByte 3 := h 3 (by simp)
  rw [payloadWindow, payloadWindow, readHeader_eq, readHeader_eq, hasAf_header, hasAf_header, hasPl_header,
    hasPl_header, h3]
  exact .ite (sameEnd_memRead_one_of_agreeOn h (by simp) fun _ => .ite (.raise _) (hk _ _)) (hk _ _)

/-- PCR and OPCR: their window `o` where the PCR flag is set stands at the fixed index `w`. -/
theorem sameEnd_timestamp_of_agreeOn (h : AgreeOn (3 :: 4 :: 5 :: js) s s') {o : Nat → Nat} {w : Nat}
    (ho : ∀ f, fPcr f = 1 → o f = w) (hw : ∀ j, w ≤ j → j < w + 6 → j ∈ 3 :: 4 :: 5 :: js) :
    SameEnd s s'
      (afFlags s fun f => if fPcr f = 1 then decodePcr s (o f) fun t => complete s t true else complete s 0 false)
      (afFlags s' fun f =>
        if fPcr f = 1 then decodePcr s' (o f) fun t => complete s' t true else complete s' 0 false) := by
  refine sameEnd_afFlags_of_agreeOn h ?_
  by_cases hf : fPcr (s.pb.readByte 5).toNat = 1
  · rw [if_pos hf, if_pos hf, ho _ hf]
    exact sameEnd_memRead_of_agreeOn h (fun j h1 h2 => hw j h1 (by omega)) fun _ =>
      sameEnd_memRead_of_agreeOn h (fun j h1 h2 => hw j (by omega) (by omega)) fun _ => .complete _ true
  · rw [if_neg hf, if_neg hf]
    exact .complete 0 false

theorem sameEnd_crcCalc_of_agreeOn {start len : Nat} (h : AgreeOn ((List.range (len - 4)).map (start + ·)) s s')
    {k k' : Word → Outcome} (hk : ∀ c, SameEnd s s' (k c) (k' c)) :
    SameEnd s s' (crcCalc s start len k) (crcCalc s' start len k') :=
  .ite (hk 0#32) (sameEnd_readBytes_of_agreeOn h (fun _ => mem_range_map_add) fun bs => hk (crcBytes bs))

/-! ### The commands -/

theorem sameEnd_execSplice_of_agreeOn (h : AgreeOn [3, 4, 5, offsetOf s 2] s s') :
    SameEnd s s' (execSplice s) (execSplice s') :=
  sameEnd_afFlags_of_agreeOn h
    (.ite (sameEnd_memRead_one_of_agreeOn h (by simp [offSpl_flags]) fun v => .complete v true) (.complete 0 false))

theorem sameEnd_execTpdlen_of_agreeOn (h : AgreeOn [3, 4, 5, offsetOf s 3] s s') :
    SameEnd s s' (execTpdlen s) (execTpdlen s') :=
  sameEnd_tpdCheck_of_agreeOn h fun _ => fun
    | some len => .complete len true
    | none => .complete 0 false

/-- CRCCHK reads the trailer beside the bytes of the CRC, and nothing of a range below 4 bytes. -/
theorem sameEnd_execCrcchk_of_agreeOn {start len : Nat} (h : AgreeOn ((List.range len).map (start + ·)) s s') :
    SameEnd s s' (execCrcchk start len s) (execCrcchk start len s') := by
  by_cases hl : len < 4
  · rw [execCrcchk, execCrcchk, if_pos hl, if_pos hl]
    exact .ite (.raise _) (.complete 0 false)
  · have hdata : AgreeOn ((List.range (len - 4)).map (start + ·)) s s' := fun j hj =>
      h j (List.map_subset _ (List.range_subset.2 (Nat.sub_le len 4)) hj)
    rw [execCrcchk, execCrcchk, if_neg hl, if_neg hl]
    exact .ite (.raise _) (sameEnd_crcCalc_of_agreeOn hdata fun _ =>
      sameEnd_memRead_of_agreeOn h (fun _ _ _ => mem_range_map_add (by omega) (by omega)) fun _ => .complete _ _)

/-- Every command but NOP ends by the bytes it may read, NANOS by RES. -/
theorem sameEnd_exec_of_agreeOn {i : Instr} (h : AgreeOn (footprint s i) s s') (hnop : i ≠ .nop)
    (hres : i = .nanos → s.res = s'.res) : SameEnd s s' (exec i s) (exec i s') := by
  cases i with
  | nop => exact absurd rfl hnop
  | hdr => exact sameEnd_header_of_agreeOn h id fun _ => false
  | sync => exact sameEnd_header_of_agreeOn h hSync fun _ => false
  | tei => exact sameEnd_header_of_agreeOn h hTei fun v => hTei v == 1
  | pusi => exact sameEnd_header_of_agreeOn h hPusi fun v => hPusi v == 1
  | tpri => exact sameEnd_header_of_agreeOn h hTpri fun v => hTpri v == 1
  | pid => exact sameEnd_header_of_agreeOn h hPid fun _ => false
  | tsc => exact sameEnd_header_of_agreeOn h hTsc fun _ => false
  | afc => exact sameEnd_header_of_agreeOn h hAfc fun _ => false
  | cc => exact sameEnd_header_of_agreeOn h hCc fun _ => false
  | hasaf => exact sameEnd_header_of_agreeOn h hasAf fun v => hasAf v == 1
  | haspl => exact sameEnd_header_of_agreeOn h hasPl fun v => hasPl v == 1
  | aflen => exact sameEnd_afCheck_of_agreeOn h fun l => .complete l false
  | afflags => exact sameEnd_flags_of_agreeOn h id fun _ => false
  | disc => exact sameEnd_flags_of_agreeOn h fDisc fun f => fDisc f == 1
  | rai => exact sameEnd_flags_of_agreeOn h fRai fun f => fRai f == 1
  | espri => exact sameEnd_flags_of_agreeOn h fEspri fun f => fEspri f == 1
  | haspcr => exact sameEnd_flags_of_agreeOn h fPcr fun f => fPcr f == 1
  | hasopcr => exact sameEnd_flags_of_agreeOn h fOpcr fun f => fOpcr f == 1
  | hasspl => exact sameEnd_flags_of_agreeOn h fSpl fun f => fSpl f == 1
  | hastpd => exact sameEnd_flags_of_agreeOn h fTpd fun f => fTpd f == 1
  | hasext => exact sameEnd_flags_of_agreeOn h fExt fun f => fExt f == 1
  | pcr => exact sameEnd_timestamp_of_agreeOn h (fun _ _ => rfl) (by simp; omega)
  | opcr => exact sameEnd_timestamp_of_agreeOn h (fun _ => offOpcr_of_fPcr) (by simp; omega)
  | splice => exact sameEnd_execSplice_of_agreeOn h
  | tpdlen => exact sameEnd_execTpdlen_of_agreeOn h
  | offpcr => exact sameEnd_flags_of_agreeOn h offPcr fun f => fPcr f == 1
  | offopcr => exact sameEnd_flags_of_agreeOn h offOpcr fun f => fOpcr f == 1
  | offspl => exact sameEnd_flags_of_agreeOn h offSpl fun f => fSpl f == 1
  | offtpd => exact sameEnd_flags_of_agreeOn h offTpd fun f => fTpd f == 1
  | offext => exact sameEnd_tpdCheck_of_agreeOn h fun _ _ => .complete _ _
  | ploff => exact sameEnd_payloadWindow_of_agreeOn h fun start pl => .complete start (pl == 1)
  | pllen => exact sameEnd_payloadWindow_of_agreeOn h fun start pl => .complete (188 - start) (pl == 1)
  | nanos => exact sameEnd_execNanos (hres rfl)
  | crc32 => exact .ite (.raise _) (sameEnd_crcCalc_of_agreeOn h fun _ => .complete _ _)
  | crcchk => exact sameEnd_execCrcchk_of_agreeOn h

end

end Sys2Proof.Machine
end

section
/-! SUPPORT. A pending command up to its completion: host accesses leave it alone, and the engine's turn ends it
(40_control.md R102, R105; 70_reset_and_hazards.md R240 to R242). -/

namespace Sys2Proof.Machine

open Sys2Proof.Safety

/-! ### Illegal words -/

/-- The words of R76's three cases decode to no command. -/
theorem decode_of_illegalWord {w : Word} (hw : illegalWord w) : ∃ why, decode w = .illegal why := by
  cases hd : decode w with
  | illegal why => exact ⟨why, rfl⟩
  | command i =>
    exfalso
    obtain ⟨hrow, h0⟩ | ⟨row, hrow, ho, h0, _⟩ := decode_command_cases hd
    · have hc0 : ∀ row ∈ c0Map, row.1 < 0x60 := by decide
      have hlt := hc0 _ hrow
      obtain hres | ⟨_, _, hne⟩ | ⟨hge, _, _⟩ := hw
      · exact not_reservedOpc_of_mem_c0Map _ hrow hres
      · exact hne h0
      · exact Nat.not_lt.2 hge hlt
    · have hcr : ∀ row ∈ crMap, 0x60 ≤ row.1 := by simp [crMap]
      have hge := hcr row hrow
      obtain hres | ⟨_, hlt, _⟩ | ⟨_, _, hne⟩ := hw
      · exact not_reservedOpc_of_mem_crMap row hrow (ho ▸ hres)
      · omega
      · exact hne h0

/-! ### The engine's turn -/

/-- The engine's turn always answers a next state. -/
theorem engineTurn_next (s : State) : ∃ t, engineTurn s = .next t := by
  cases hp : s.pend with
  | none => exact ⟨s, engineTurn_of_none hp⟩
  | some w =>
    cases hd : decode w with
    | command i => rw [engineTurn_of_command hp hd]; exact (ends_exec i s).next
    | illegal why => exact ⟨_, engineTurn_of_illegal hp hd⟩

theorem pend_of_engineTurn {s t : State} (h : engineTurn s = .next t) : t.pend = none := by
  cases hp : s.pend with
  | none => rw [engineTurn_of_none hp] at h; cases h; exact hp
  | some w => exact (completed_engineTurn hp h).pend

/-- States with the same pending word, PB and RES complete it with the same results. -/
theorem results_engineTurn {s s' t t' : State} {w : Word} (hp : s.pend = some w) (hp' : s'.pend = some w)
    (hpb : s.pb = s'.pb) (hres : s.res = s'.res) (h : engineTurn s = .next t) (h' : engineTurn s' = .next t') :
    t.res = t'.res ∧ t.p = t'.p ∧ t.err = t'.err := by
  cases hd : decode w with
  | command i =>
    rw [engineTurn_of_command hp hd] at h
    rw [engineTurn_of_command hp' hd] at h'
    exact results_exec hpb hres h h'
  | illegal why =>
    rw [engineTurn_of_illegal hp hd] at h
    rw [engineTurn_of_illegal hp' hd] at h'
    cases h
    cases h'
    exact ⟨rfl, rfl, rfl⟩

/-! ### Host accesses, and what they leave alone while a command is pending -/

theorem hostWrite_of_cmd_idle {s : State} {a : HostAddr} {w : Word} (ht : hostTarget a = .cmd) (hb : s.busy = false) :
    s.hostWrite a w = s.accept w := by
  simp only [State.hostWrite, ht, hb, Bool.false_eq_true, if_false]

/-- The pending command of `s`, what it will read and the results the host sees are those of `t`. -/
structure Undisturbed (s t : State) : Prop where
  pb : t.pb = s.pb
  cmd : t.cmd = s.cmd
  busy : t.busy = s.busy
  pend : t.pend = s.pend
  res : t.res = s.res
  p : t.p = s.p
  err : t.err = s.err

theorem Undisturbed.refl (s : State) : Undisturbed s s := ⟨rfl, rfl, rfl, rfl, rfl, rfl, rfl⟩

theorem Undisturbed.trans {s t u : State} (h : Undisturbed s t) (h' : Undisturbed t u) : Undisturbed s u :=
  ⟨h'.pb.trans h.pb, h'.cmd.trans h.cmd, h'.busy.trans h.busy, h'.pend.trans h.pend, h'.res.trans h.res,
    h'.p.trans h.p, h'.err.trans h.err⟩

/-- While BUSY is 1 a host write sets or clears sticky bits only. -/
theorem undisturbed_hostWrite {s : State} (a : HostAddr) (w : Word) (hb : s.busy = true) :
    Undisturbed s (s.hostWrite a w) := by
  have hidle : s.busy ≠ false := by simp [hb]
  obtain h | ⟨_, h0⟩ | ⟨h, _⟩ | h | ⟨h, _⟩ | ⟨_, _, _, h0, _⟩ := hostWrite_cases s a w
  · rw [h]; exact .refl s
  · exact absurd h0 hidle
  · rw [h]; constructor <;> rfl
  · rw [h]; constructor <;> rfl
  · rw [h]; constructor <;> rfl
  · exact absurd h0 hidle

theorem hostWrite_agenda (s : State) (a : HostAddr) (w : Word) : (s.hostWrite a w).agenda = s.agenda := by
  obtain h | ⟨h, _⟩ | ⟨h, _⟩ | h | ⟨h, _⟩ | ⟨k, _, _, _, h⟩ := hostWrite_cases s a w <;> rw [h] <;> rfl

theorem step_of_hostAccess {s : State} {turn : Turn} {rest : List Turn} (h : s.agenda = turn :: rest)
    (hturn : isHostAccess turn = true) :
    ∃ u, step s = .next u ∧ u.agenda = rest ∧ (s.busy = true → Undisturbed s u) := by
  cases turn with
  | hostRead a => exact ⟨_, step_of_hostRead h, rfl, fun _ => by constructor <;> rfl⟩
  | hostWrite a w =>
    have hrest : Undisturbed s { s with agenda := rest } := by constructor <;> rfl
    exact ⟨_, step_of_hostWrite h, hostWrite_agenda _ a w, fun hb => hrest.trans (undisturbed_hostWrite a w hb)⟩
  | engine => cases hturn
  | reset => cases hturn

/-- Host accesses run one after the other, and do not disturb a busy engine. -/
theorem run_hostAccesses {rest : List Turn} : ∀ {accesses : List Turn} {s : State}, s.agenda = accesses ++ rest →
    (∀ t ∈ accesses, isHostAccess t = true) →
    ∃ u, core.run accesses.length s = .next u ∧ u.agenda = rest ∧ (s.busy = true → Undisturbed s u)
  | [], s, h, _ => ⟨s, rfl, h, fun _ => .refl s⟩
  | turn :: accesses, s, h, hall => by
    obtain ⟨u, hstep, hagenda, hu⟩ := step_of_hostAccess h (hall turn (by simp))
    obtain ⟨v, hrun, hrest, hv⟩ := run_hostAccesses hagenda fun t ht => hall t (by simp [ht])
    refine ⟨v, (run_succ _ hstep).trans hrun, hrest, fun hb => ?_⟩
    have hsu := hu hb
    exact hsu.trans (hv (hsu.busy.trans hb))

/-! ### Up to the next turn of the engine -/

/-- An agenda begins with host accesses, up to a turn of the engine, a reset or its end. -/
theorem exists_hostAccesses : ∀ l : List Turn, ∃ accesses rest, l = accesses ++ rest ∧
    (∀ t ∈ accesses, isHostAccess t = true) ∧ (rest = [] ∨ ∃ l', rest = .engine :: l' ∨ rest = .reset :: l')
  | [] => ⟨[], [], rfl, by simp, .inl rfl⟩
  | .engine :: l => ⟨[], _, rfl, by simp, .inr ⟨l, .inl rfl⟩⟩
  | .reset :: l => ⟨[], _, rfl, by simp, .inr ⟨l, .inr rfl⟩⟩
  | .hostRead a :: l =>
    have ⟨accesses, rest, hl, hall, hrest⟩ := exists_hostAccesses l
    ⟨.hostRead a :: accesses, rest, congrArg _ hl, List.forall_mem_cons.2 ⟨rfl, hall⟩, hrest⟩
  | .hostWrite a w :: l =>
    have ⟨accesses, rest, hl, hall, hrest⟩ := exists_hostAccesses l
    ⟨.hostWrite a w :: accesses, rest, congrArg _ hl, List.forall_mem_cons.2 ⟨rfl, hall⟩, hrest⟩

/-- Within the agenda the machine comes to a turn of the engine or to a reset the agenda lists. -/
theorem run_to_engineTurn_or_reset (s : State) : ∃ (k : Nat) (u : State) (rest : List Turn), k ≤ s.agenda.length ∧
    core.run k s = .next u ∧ (s.busy = true → Undisturbed s u) ∧
    (EngineTurnIs u rest ∨ u.agenda = .reset :: rest ∧ Turn.reset ∈ s.agenda) := by
  obtain ⟨accesses, rest, hl, hall, hrest⟩ := exists_hostAccesses s.agenda
  obtain ⟨u, hrun, hagenda, hu⟩ := run_hostAccesses hl hall
  have hlen : accesses.length ≤ s.agenda.length := by simp [hl]
  obtain rfl | ⟨l, rfl | rfl⟩ := hrest
  · exact ⟨_, u, [], hlen, hrun, hu, .inl (.inr ⟨hagenda, rfl⟩)⟩
  · exact ⟨_, u, l, hlen, hrun, hu, .inl (.inl hagenda)⟩
  · exact ⟨_, u, l, hlen, hrun, hu, .inr ⟨hagenda, by simp [hl]⟩⟩

/-- A run of one step more, by its last step. -/
theorem run_succ_last {s u t : State} {k : Nat} (h : core.run k s = .next u) (hstep : step u = .next t) :
    core.run (k + 1) s = .next t := by
  rw [run_add h, run_succ 0 hstep, run_zero]

/-- Without a reset, a busy engine ends its pending word within the agenda and one step, with the results it would
have at once. -/
theorem run_to_completion {s v : State} {w : Word} (hb : s.busy = true) (hp : s.pend = some w)
    (hreset : Turn.reset ∉ s.agenda) (hv : engineTurn s = .next v) :
    ∃ k t, k ≤ s.agenda.length + 1 ∧ core.run k s = .next t ∧ t.res = v.res ∧ t.p = v.p ∧ t.err = v.err ∧
      t.pb = s.pb ∧ t.cmd = s.cmd ∧ t.busy = false ∧ t.pend = none := by
  obtain ⟨k, u, rest, hk, hrun, hu, hturn | ⟨_, hmem⟩⟩ := run_to_engineTurn_or_reset s
  · have same := hu hb
    have hpu : u.pend = some w := same.pend.trans hp
    obtain ⟨t, ht⟩ := engineTurn_next { u with agenda := rest }
    have done : Completed { u with agenda := rest } t := completed_engineTurn hpu ht
    obtain ⟨hres, hpt, herr⟩ := results_engineTurn (s := { u with agenda := rest }) hpu hp same.pb same.res ht hv
    exact ⟨k + 1, t, Nat.succ_le_succ hk, run_succ_last hrun ((step_of_engineTurnIs hturn).trans ht), hres, hpt, herr,
      done.pb.trans same.pb, done.cmd.trans same.cmd, done.busy, done.pend⟩
  · exact absurd hmem hreset

/-- From any state the machine comes, within the agenda and one step, to one with nothing pending. -/
theorem run_to_idle (s : State) : ∃ k t, k ≤ s.agenda.length + 1 ∧ core.run k s = .next t ∧ t.pend = none := by
  obtain ⟨k, u, rest, hk, hrun, _, hturn | ⟨hagenda, _⟩⟩ := run_to_engineTurn_or_reset s
  · obtain ⟨t, ht⟩ := engineTurn_next { u with agenda := rest }
    exact ⟨k + 1, t, Nat.succ_le_succ hk, run_succ_last hrun ((step_of_engineTurnIs hturn).trans ht),
      pend_of_engineTurn ht⟩
  · exact ⟨k + 1, _, Nat.succ_le_succ hk, run_succ_last hrun (step_of_cons hagenda), rfl⟩

end Sys2Proof.Machine
end

section
/-! PROOFS. The statements about the command cycle (40_control.md). -/

namespace Sys2Proof.Machine

open Sys2Proof.Safety

/-- Settles O6: none of R76's three cases decodes to a command. -/
theorem illegalWordRaisesIll : Obligations.IllegalWordRaisesIll := by
  refine ⟨fun s w rest hp hw hturn => ?_, ?_⟩
  · obtain ⟨why, hd⟩ := decode_of_illegalWord hw
    exact step_of_illegalPending hp hd hturn
  · have hdr := not_reservedOpc_of_mem_c0Map (0x10, .hdr) (by simp [c0Map])
    refine ⟨.inl (.inl (by decide)), .inr (.inl ⟨hdr, by decide, by decide⟩), fun hw => ?_⟩
    obtain ⟨why, hd⟩ := decode_of_illegalWord hw
    have hcrc : decode 0x6000FFFF#32 = .command (.crc32 255 255) := by decide
    rw [hcrc] at hd
    cases hd

/-- Settles O11: every command ends in one of the three ways, each of which leaves these alone. -/
theorem completionLeavesEverythingElse : Obligations.CompletionLeavesEverythingElse := by
  intro i s t h
  have done := completed_exec h
  refine ⟨done.cmd, done.cmdovr, done.pblock, done.rdata, done.agenda, fun a => by rw [done.pb], done.busy, done.pend,
    fun hnop => ?_⟩
  rw [hnop, exec_nop] at h
  cases h
  rfl

/-- Settles O32: host accesses do not disturb the pending word, and the engine's turn after them ends it. -/
theorem acceptedCommandCompletes : Obligations.AcceptedCommandCompletes := by
  refine ⟨fun s w hb hp hreset => ?_, fun s w _ => run_to_idle s⟩
  obtain ⟨v, hv⟩ := engineTurn_next s
  obtain ⟨k, t, hk, hrun, hends⟩ := run_to_completion hb hp hreset hv
  refine ⟨k, t, v, hk, hrun, fun i hd => (engineTurn_of_command hp hd).symm.trans hv, fun hw => ?_, hends⟩
  obtain ⟨why, hd⟩ := decode_of_illegalWord hw
  rw [engineTurn_of_illegal hp hd] at hv
  cases hv
  rfl

/-- Settles O33: NOP writes constants, every other command ends by the bytes it may read and NANOS by RES. -/
theorem resultsDependOnlyOnTheListedBytes : Obligations.ResultsDependOnlyOnTheListedBytes := by
  intro i s s' hbytes hres
  by_cases hnop : i = .nop
  · subst hnop
    exact ⟨_, _, exec_nop s, exec_nop s', rfl, rfl, absurd rfl⟩
  · obtain ⟨t, ht⟩ := (ends_exec i s).next
    obtain ⟨t', ht'⟩ := (ends_exec i s').next
    have hsame := sameEnd_exec_of_agreeOn hbytes hnop hres
    rw [ht, ht'] at hsame
    obtain ⟨hr, hp, he⟩ := hsame.results
    exact ⟨t, t', ht, ht', hp, he, fun _ => hr⟩

/-- Settles O5: both forms of the engine's turn are one step. -/
theorem stepRunsThePendingCommand : Obligations.StepRunsThePendingCommand :=
  fun _ _ _ _ => step_of_commandPending

/-- Settles O8: an engine turn with nothing pending only takes itself off the agenda. -/
theorem engineIsIdleWhenNothingIsPending : Obligations.EngineIsIdleWhenNothingIsPending :=
  fun _ _ hp hturn => (step_of_engineTurnIs hturn).trans (engineTurn_of_none hp)

/-- Settles O14: addresses 0 to 3 select CMD; the write to a busy engine is the dropped one of O15. -/
theorem commandWriteIsAcceptedWhenIdle : Obligations.CommandWriteIsAcceptedWhenIdle := by
  intro s a w rest h ha
  have ht : hostTarget a = .cmd := hostTarget_of_cmd (Nat.div_eq_of_lt ha)
  obtain ⟨hdropped, _⟩ := droppedCommandWriteSetsStickyCmdovr
  exact ⟨fun hb => (step_of_hostWrite h).trans (congrArg _ (hostWrite_of_cmd_idle ht hb)), hdropped s a w rest h ha⟩

/-- Settles O35: the row of NOP in the opcode map, and its `complete_keep`. -/
theorem nopKeepsResAndClearsErr : Obligations.NopKeepsResAndClearsErr := by
  refine ⟨by decide, exec_nop, fun w ho hne => ?_⟩
  have hrow : (0x00, Instr.nop) ∈ c0Map := by simp [c0Map]
  have hlow : w.toNat % 2 ^ 24 ≠ 0 := by rw [opcOf] at ho; omega
  rw [decode_of_mem_c0Map hrow ho, if_neg hlow]

end Sys2Proof.Machine
end

section
/-! SUPPORT. The header commands by what they read: big-endian reads as sums, the ends of the header commands, the
value of AFC and its two bits, and the fields of the header word above its continuity counter (41_header.md R110,
R122, R123). -/

namespace Sys2Proof.Machine

open Sys2Proof.Safety

/-! ### Big-endian reads as the sum of 00_scope.md R8 -/

/-- What stands before a list moves up by its bytes. -/
theorem foldl_bigEndian : ∀ (bs : List Byte) (a : Nat),
    bs.foldl (fun acc b => acc * 2 ^ 8 + b.toNat) a = a * 2 ^ (8 * bs.length) + bigEndian bs
  | [], a => by simp [bigEndian]
  | b :: bs, a => by
    have hb : bigEndian (b :: bs) = (0 * 2 ^ 8 + b.toNat) * 2 ^ (8 * bs.length) + bigEndian bs := foldl_bigEndian bs _
    rw [List.foldl_cons, foldl_bigEndian bs, hb, List.length_cons]
    ring

/-- The first byte of a list is its most significant one. -/
theorem bigEndian_cons (b : Byte) (bs : List Byte) :
    bigEndian (b :: bs) = b.toNat * 2 ^ (8 * bs.length) + bigEndian bs := by
  rw [bigEndian, List.foldl_cons, foldl_bigEndian, Nat.zero_mul, Nat.zero_add]

theorem Memory.memRead_succ (m : Memory) (i n : Nat) :
    m.memRead i (n + 1) = (m.readByte i).toNat * 2 ^ (8 * n) + m.memRead (i + 1) n := by
  rw [Memory.memRead, Memory.slice_succ, bigEndian_cons, Memory.length_slice, Memory.memRead]

theorem beRead_succ (s : State) (i n : Nat) :
    beRead s i (n + 1) = byteAt s i * 2 ^ (8 * n) + beRead s (i + 1) n := by
  simp [beRead, List.range_succ_eq_map, Function.comp_def, Nat.add_assoc, Nat.add_comm 1, Nat.sub_sub]

/-- A read of PB is the sum of its bytes, each at its place. -/
theorem memRead_eq_beRead (s : State) : ∀ i n, s.pb.memRead i n = beRead s i n
  | _, 0 => rfl
  | i, n + 1 => by rw [Memory.memRead_succ, beRead_succ, memRead_eq_beRead s (i + 1) n, byteAt]

/-! ### How the header commands end -/

/-- A header command that completes with a function of the header word. -/
theorem readHeader_complete {s : State} {v : Nat} (field : Nat → Nat) (p : Nat → Bool)
    (h : field (s.pb.memRead 0 4) = v) :
    (readHeader s fun w => complete s (field w) (p (field w))) = .next (succeeded s v (p v)) := by
  rw [readHeader_eq, h]; rfl

/-- A header command that completes with one bit in RES and P. -/
theorem readHeader_completeBit {s : State} {b : Bool} (field : Nat → Nat) (h : field (s.pb.memRead 0 4) = b.toNat) :
    (readHeader s fun w => completeBit s (field w)) = .next (succeededBit s b) := by
  have hp : (b.toNat == 1) = b := by cases b <;> rfl
  have hend := readHeader_complete field (· == 1) h
  rwa [hp] at hend

/-! ### The value of AFC (41_header.md R122) -/

theorem afcOf_lt (s : State) : afcOf s < 4 := Nat.mod_lt _ (by decide)

theorem hAfc_eq_afcOf (s : State) : hAfc (s.pb.memRead 0 4) = afcOf s := hAfc_header s.pb

/-- Bit 5 of byte 3 is the upper bit of AFC. -/
theorem byteBit_three_five (s : State) : byteBit s 3 5 = (afcOf s == 2 || afcOf s == 3) := by
  have h : (byteBit s 3 5).toNat = afcOf s / 2 := by
    rw [← hAfc_eq_afcOf, ← hasAf_eq_afc, hasAf_header, byteBit]
  have upper : ∀ a < 4, ∀ b : Bool, b.toNat = a / 2 → b = (a == 2 || a == 3) := by decide
  exact upper _ (afcOf_lt s) _ h

/-- Bit 4 of byte 3 is the lower bit of AFC. -/
theorem byteBit_three_four (s : State) : byteBit s 3 4 = (afcOf s == 1 || afcOf s == 3) := by
  have h : (byteBit s 3 4).toNat = afcOf s % 2 := by
    rw [← hAfc_eq_afcOf, ← hasPl_eq_afc, hasPl_header, byteBit]
  have lower : ∀ a < 4, ∀ b : Bool, b.toNat = a % 2 → b = (a == 1 || a == 3) := by decide
  exact lower _ (afcOf_lt s) _ h

/-- has_af as the truth table has it. -/
theorem hasAf_eq_afcOf (s : State) : hasAf (s.pb.memRead 0 4) = (afcOf s == 2 || afcOf s == 3).toNat := by
  rw [hasAf_header, ← byteBit, byteBit_three_five]

/-- has_pl as the truth table has it. -/
theorem hasPl_eq_afcOf (s : State) : hasPl (s.pb.memRead 0 4) = (afcOf s == 1 || afcOf s == 3).toNat := by
  rw [hasPl_header, ← byteBit, byteBit_three_four]

/-! ### The fields of the header word (41_header.md R110, R123) -/

theorem memRead_header_lt (m : Memory) : m.memRead 0 4 < 2 ^ 32 := bigEndian_lt (m.slice 0 4)

/-- A number from bit `lo` on: what lies above a field, and the field. -/
theorem div_two_pow_eq_bits (v : Nat) {hi lo : Nat} (h : lo ≤ hi) :
    v / 2 ^ lo = v / 2 ^ (hi + 1) * 2 ^ (hi - lo + 1) + bits v hi lo := by
  have hexp : hi + 1 = lo + (hi - lo + 1) := by omega
  rw [hexp, Nat.pow_add, ← Nat.div_div_eq_div_mul, bits_eq, Nat.div_add_mod']

/-- The eight fields, each at its place, leave no bit of the word out. -/
theorem header_eq_sum_of_fields {h : Nat} (hlt : h < 2 ^ 32) :
    h = hSync h * 2 ^ 24 + hTei h * 2 ^ 23 + hPusi h * 2 ^ 22 + hTpri h * 2 ^ 21 + hPid h * 2 ^ 8 + hTsc h * 2 ^ 6 +
      hAfc h * 2 ^ 4 + hCc h := by
  have htop : h / 2 ^ 32 = 0 := Nat.div_eq_of_lt hlt
  have sync : h / 2 ^ 24 = h / 2 ^ 32 * 2 ^ 8 + hSync h := div_two_pow_eq_bits h (by decide)
  have tei : h / 2 ^ 23 = h / 2 ^ 24 * 2 ^ 1 + hTei h := div_two_pow_eq_bits h (by decide)
  have pusi : h / 2 ^ 22 = h / 2 ^ 23 * 2 ^ 1 + hPusi h := div_two_pow_eq_bits h (by decide)
  have tpri : h / 2 ^ 21 = h / 2 ^ 22 * 2 ^ 1 + hTpri h := div_two_pow_eq_bits h (by decide)
  have pid : h / 2 ^ 8 = h / 2 ^ 21 * 2 ^ 13 + hPid h := div_two_pow_eq_bits h (by decide)
  have tsc : h / 2 ^ 6 = h / 2 ^ 8 * 2 ^ 2 + hTsc h := div_two_pow_eq_bits h (by decide)
  have afc : h / 2 ^ 4 = h / 2 ^ 6 * 2 ^ 2 + hAfc h := div_two_pow_eq_bits h (by decide)
  have cc : h / 2 ^ 0 = h / 2 ^ 4 * 2 ^ 4 + hCc h := div_two_pow_eq_bits h (by decide)
  omega

@[simp] theorem succeeded_res (s : State) (r : Nat) (p : Bool) : (succeeded s r p).res = BitVec.ofNat 64 r := rfl

/-- Bytes that differ at most in the low 4 bits of byte 3 give header words that differ at most there. -/
theorem memRead_header_div_congr {s s' : State} (h0 : byteAt s 0 = byteAt s' 0) (h1 : byteAt s 1 = byteAt s' 1)
    (h2 : byteAt s 2 = byteAt s' 2) (h3 : byteAt s 3 / 16 = byteAt s' 3 / 16) :
    s.pb.memRead 0 4 / 2 ^ 4 = s'.pb.memRead 0 4 / 2 ^ 4 := by
  simp only [byteAt] at h0 h1 h2 h3
  rw [memRead_header, memRead_header]
  omega

/-- A field from bit 4 up does not see the low 4 bits. -/
theorem bits_congr_of_div {v v' hi lo : Nat} (h : v / 2 ^ 4 = v' / 2 ^ 4) (hlo : 4 ≤ lo) :
    bits v hi lo = bits v' hi lo := by
  have hdiv : ∀ u : Nat, u / 2 ^ lo = u / 2 ^ 4 / 2 ^ (lo - 4) := fun u => by
    rw [Nat.div_div_eq_div_mul, ← Nat.pow_add, Nat.add_sub_cancel' hlo]
  rw [bits_eq, bits_eq, hdiv, hdiv, h]

section
variable {s s' : State} (hword : s.pb.memRead 0 4 / 2 ^ 4 = s'.pb.memRead 0 4 / 2 ^ 4)
include hword

/-- A header command that completes with a field from bit 4 up. -/
theorem sameEnd_headerField_of_div (hi lo : Nat) (p : Nat → Bool) (hlo : 4 ≤ lo) :
    SameEnd s s' (readHeader s fun w => complete s (bits w hi lo) (p (bits w hi lo)))
      (readHeader s' fun w => complete s' (bits w hi lo) (p (bits w hi lo))) := by
  rw [readHeader_eq, readHeader_eq, bits_congr_of_div hword hlo]
  exact .complete _ _

/-- None of these commands reads below bit 4 of the header word. -/
theorem sameEnd_exec_of_mem_ccFreeCommands {i : Instr} (hi : i ∈ ccFreeCommands) :
    SameEnd s s' (exec i s) (exec i s') := by
  simp only [ccFreeCommands, List.mem_cons, List.not_mem_nil, or_false] at hi
  obtain rfl | rfl | rfl | rfl | rfl | rfl | rfl | rfl | rfl := hi
  · exact sameEnd_headerField_of_div hword 31 24 (fun _ => false) (by decide)
  · exact sameEnd_headerField_of_div hword 23 23 (· == 1) (by decide)
  · exact sameEnd_headerField_of_div hword 22 22 (· == 1) (by decide)
  · exact sameEnd_headerField_of_div hword 21 21 (· == 1) (by decide)
  · exact sameEnd_headerField_of_div hword 20 8 (fun _ => false) (by decide)
  · exact sameEnd_headerField_of_div hword 7 6 (fun _ => false) (by decide)
  · exact sameEnd_headerField_of_div hword 5 4 (fun _ => false) (by decide)
  · exact sameEnd_headerField_of_div hword 5 5 (· == 1) (by decide)
  · exact sameEnd_headerField_of_div hword 4 4 (· == 1) (by decide)

end

end Sys2Proof.Machine
end

section
/-! PROOFS. The statements about the header commands (41_header.md). -/

namespace Sys2Proof.Machine

open Sys2Proof.Safety

/-- Settles O36: each field of the header word is the one of its bytes. -/
theorem headerFieldCommandsGiveTheirBytes : Obligations.HeaderFieldCommandsGiveTheirBytes :=
  ⟨⟨by decide, fun s => (exec_hdr s).trans (by rw [memRead_eq_beRead]; rfl)⟩,
    ⟨by decide, fun s => readHeader_complete hSync (fun _ => false) (hSync_header s.pb)⟩,
    ⟨by decide, fun s => readHeader_complete hPid (fun _ => false) (hPid_header s.pb)⟩,
    ⟨by decide, fun s => readHeader_complete hTsc (fun _ => false) (hTsc_header s.pb)⟩,
    ⟨by decide, fun s => readHeader_complete hAfc (fun _ => false) (hAfc_header s.pb)⟩,
    ⟨by decide, fun s => readHeader_complete hCc (fun _ => false) (hCc_header s.pb)⟩⟩

/-- Settles O37: bits 23 to 21 of the header word are bits 7 to 5 of byte 1. -/
theorem headerFlagCommandsGiveTheirBit : Obligations.HeaderFlagCommandsGiveTheirBit :=
  ⟨⟨by decide, fun s => readHeader_completeBit hTei (hTei_header s.pb)⟩,
    ⟨by decide, fun s => readHeader_completeBit hPusi (hPusi_header s.pb)⟩,
    ⟨by decide, fun s => readHeader_completeBit hTpri (hTpri_header s.pb)⟩⟩

/-- Settles O38: has_af and has_pl are the two bits of AFC. -/
theorem afcTruthTable : Obligations.AfcTruthTable :=
  ⟨⟨by decide, fun s => readHeader_completeBit hasAf (hasAf_eq_afcOf s)⟩,
    ⟨by decide, fun s => readHeader_completeBit hasPl (hasPl_eq_afcOf s)⟩,
    fun s => ⟨byteBit_three_five s, byteBit_three_four s⟩⟩

/-- Settles O39: the fields compose the header word, and all but CC lie above its low 4 bits. -/
theorem headerFieldsCoverTheWord : Obligations.HeaderFieldsCoverTheWord := by
  refine ⟨fun s => ?_, fun s s' h0 h1 h2 h3 i hi => ?_⟩
  · have hlt := memRead_header_lt s.pb
    have hsum := header_eq_sum_of_fields hlt
    refine ⟨_, _, _, _, _, _, _, _, _, exec_hdr s,
      readHeader_complete hSync (fun _ => false) rfl, readHeader_complete hTei (· == 1) rfl,
      readHeader_complete hPusi (· == 1) rfl, readHeader_complete hTpri (· == 1) rfl,
      readHeader_complete hPid (fun _ => false) rfl, readHeader_complete hTsc (fun _ => false) rfl,
      readHeader_complete hAfc (fun _ => false) rfl, readHeader_complete hCc (fun _ => false) rfl, ?_⟩
    simp (disch := omega) only [succeeded_res, State.complete_res, BitVec.toNat_ofNat, Nat.mod_eq_of_lt]
    exact hsum
  · obtain ⟨t, ht⟩ := (ends_exec i s).next
    obtain ⟨t', ht'⟩ := (ends_exec i s').next
    have hsame := sameEnd_exec_of_mem_ccFreeCommands (memRead_header_div_congr h0 h1 h2 h3) hi
    rw [ht, ht'] at hsame
    obtain ⟨hr, hp, _⟩ := hsame.results
    exact ⟨t, t', ht, ht', hr, hp⟩

end Sys2Proof.Machine
end

section
/-! SUPPORT. The adaptation-field and payload-window commands in the packet's own terms: AF_CHECK, TPD_CHECK and the
payload window by AFC and L, the bits of the flags byte, and the offsets as running sums of the present sub-fields
(42_adaptation.md R130 to R133, R151). -/

namespace Sys2Proof.Machine

open Sys2Proof.Safety

/-! ### The adaptation field by AFC (41_header.md R122) -/

theorem hasAf_eq_one_iff {s : State} : hasAf (s.pb.memRead 0 4) = 1 ↔ HasAf s := by
  rw [hasAf_eq_afcOf, Bool.toNat_eq_one, Bool.or_eq_true, beq_iff_eq, beq_iff_eq, HasAf]

theorem not_hasAf_of_hasAf_eq_zero {s : State} (h : hasAf (s.pb.memRead 0 4) = 0) : ¬ HasAf s := fun haf =>
  Nat.zero_ne_one (h.symm.trans (hasAf_eq_one_iff.2 haf))

theorem hasPl_eq_hasPayload (s : State) : hasPl (s.pb.memRead 0 4) = (hasPayload s).toNat := hasPl_eq_afcOf s

/-! ### AF_CHECK (R131) -/

section
variable {s : State} (k : Nat → Outcome)

theorem afCheck_of_not_hasAf (h : ¬ HasAf s) : afCheck s k = .next (failed s .noaf) := by
  obtain ⟨_, heq⟩ | ⟨h1, _⟩ | ⟨h1, _⟩ := afCheck_cases s k
  · exact heq
  · exact absurd (hasAf_eq_one_iff.1 h1) h
  · exact absurd (hasAf_eq_one_iff.1 h1) h

theorem afCheck_of_long (h : HasAf s) (hl : 183 < afLenOf s) : afCheck s k = .next (failed s .oob) := by
  obtain ⟨h0, _⟩ | ⟨_, _, heq⟩ | ⟨_, hle, _⟩ := afCheck_cases s k
  · exact absurd h (not_hasAf_of_hasAf_eq_zero h0)
  · exact heq
  · exact absurd hl (Nat.not_lt.2 hle)

theorem afCheck_of_afReadable (h : AfReadable s) : afCheck s k = k (afLenOf s) := by
  obtain ⟨h0, _⟩ | ⟨_, hlt, _⟩ | ⟨_, _, heq⟩ := afCheck_cases s k
  · exact absurd h.1 (not_hasAf_of_hasAf_eq_zero h0)
  · exact absurd hlt (Nat.not_lt.2 h.2)
  · exact heq

end

/-! ### The flags byte (R130) -/

theorem bit_flags (s : State) (j : Nat) : bit (byteAt s 5) j = (flagOf s j).toNat := bit_toNat _ _

theorem bit_flags_eq_one_iff (s : State) (j : Nat) : bit (byteAt s 5) j = 1 ↔ flagOf s j = true := by
  rw [bit_flags, Bool.toNat_eq_one]

theorem bit_flags_beq_one (s : State) (j : Nat) : (bit (byteAt s 5) j == 1) = flagOf s j := by
  rw [bit_flags]; cases flagOf s j <;> rfl

/-- A command that completes with a flag in RES and P. -/
theorem completeBit_flag (s : State) (j : Nat) :
    completeBit s (bit (byteAt s 5) j) = .next (succeededBit s (flagOf s j)) := by
  rw [completeBit, bit_flags_beq_one, bit_flags]; rfl

/-- A command that completes with a flag in P. -/
theorem complete_flag {s : State} {r v : Nat} (j : Nat) (h : r = v) :
    complete s r (bit (byteAt s 5) j == 1) = .next (succeeded s v (flagOf s j)) := by
  rw [bit_flags_beq_one, h]; rfl

/-! ### The cascading offsets (R132) -/

/-- Each offset is the one before it, moved up by its sub-field where that is present. -/
theorem offsetOf_succ (s : State) {j : Nat} (hj : j < 3) :
    offsetOf s (j + 1) = offsetOf s j + if ((subFields s)[j]'hj).1 then ((subFields s)[j]'hj).2 else 0 := by
  have htake : (subFields s).take (j + 1) = (subFields s).take j ++ [(subFields s)[j]'hj] :=
    List.take_succ_eq_append_getElem hj
  simp only [offsetOf, presentLength, htake, List.map_append, List.sum_append,
    List.map_cons, List.map_nil, List.sum_singleton, Nat.add_assoc]

/-- The extension stands after the TPD sub-field where that is present. -/
theorem extOffsetOf_eq (s : State) :
    extOffsetOf s = offsetOf s 3 + if flagOf s 1 then 1 + tpdLenOf s else 0 := by
  simp only [extOffsetOf, presentLength, List.map_append, List.sum_append, List.map_cons, List.map_nil,
    List.sum_singleton, ← Nat.add_assoc]
  rfl

theorem offOpcr_flags (s : State) : offOpcr (byteAt s 5) = offsetOf s 1 := by
  rw [offsetOf_succ s (by decide), offOpcr, fPcr, bit_flags]
  cases h : flagOf s 4 <;> simp [subFields, h] <;> rfl

theorem offsetOf_two_le (s : State) : offsetOf s 2 ≤ 18 := offSpl_flags s ▸ offSpl_le _

theorem offsetOf_three_le (s : State) : offsetOf s 3 ≤ 19 := offTpd_flags s ▸ offTpd_le _

theorem extOffsetOf_le {s : State} (h : TpdReadable s) : extOffsetOf s ≤ 188 := by
  have h3 := offsetOf_three_le s
  rw [extOffsetOf_eq]
  split
  next hf => have := h hf; omega
  next => omega

/-! ### TPD_CHECK (R133) -/

/-- The length `tpd_len` as TPD_CHECK hands it on. -/
def tpdLen? (s : State) : Option Nat := if flagOf s 1 then some (tpdLenOf s) else none

/-- `tpdCheck_cases` on the flags byte of the packet. -/
theorem tpdCheck_flags_cases (s : State) (k : Option Nat → Outcome) :
    (TpdReadable s ∧ tpdCheck s (byteAt s 5) k = k (tpdLen? s)) ∨
    (¬ TpdReadable s ∧ tpdCheck s (byteAt s 5) k = .next (failed s .oob)) := by
  have ho : offTpd (byteAt s 5) = offsetOf s 3 := offTpd_flags s
  have hset := bit_flags_eq_one_iff s 1
  obtain ⟨h0, heq⟩ | ⟨h1, hlt, heq⟩ | ⟨h1, hle, heq⟩ := tpdCheck_cases s (byteAt s 5) k
  · have hf : flagOf s 1 ≠ true := fun h => Nat.zero_ne_one (h0.symm.trans (hset.2 h))
    exact .inl ⟨fun h => absurd h hf, by rw [heq, tpdLen?, if_neg hf]⟩
  · rw [ho] at hlt
    exact .inr ⟨fun h => absurd (h (hset.1 h1)) (Nat.not_le.2 hlt), heq⟩
  · rw [ho] at hle heq
    exact .inl ⟨fun _ => hle, by rw [heq, tpdLen?, if_pos (hset.1 h1)]; rfl⟩

section
variable {s : State} (k : Option Nat → Outcome)

theorem tpdCheck_of_tpdReadable (h : TpdReadable s) : tpdCheck s (byteAt s 5) k = k (tpdLen? s) := by
  obtain ⟨_, heq⟩ | ⟨hn, _⟩ := tpdCheck_flags_cases s k
  · exact heq
  · exact absurd h hn

theorem tpdCheck_of_not_tpdReadable (h : ¬ TpdReadable s) :
    tpdCheck s (byteAt s 5) k = .next (failed s .oob) := by
  obtain ⟨hy, _⟩ | ⟨_, heq⟩ := tpdCheck_flags_cases s k
  · exact absurd hy h
  · exact heq

end

theorem offExt_flags (s : State) : offExt (byteAt s 5) (tpdLen? s) = extOffsetOf s := by
  have ho : offTpd (byteAt s 5) = offsetOf s 3 := offTpd_flags s
  rw [extOffsetOf_eq, tpdLen?]
  split
  · rw [offExt, ho]
  · rw [offExt, ho, Nat.add_zero]

/-! ### The rules of the families -/

section
variable {i : Instr} {word : Word} {result : State → State} (hdec : decode word = .command i)
include hdec

/-- A command that is AF_CHECK and then its own part on L. -/
theorem afRule_of_afCheck (k : State → Nat → Outcome) (hexec : ∀ s, exec i s = afCheck s (k s))
    (hk : ∀ s, k s (afLenOf s) = .next (result s)) : AfRule i word result :=
  ⟨hdec, fun s h => by rw [hexec, afCheck_of_afReadable _ h, hk],
    fun s h => by rw [hexec, afCheck_of_not_hasAf _ h], fun s h hl => by rw [hexec, afCheck_of_long _ h hl]⟩

/-- A command that is AF_CHECK and then its own part on the flags byte. -/
theorem afRule_of_afFlags (k : State → Nat → Outcome) (hexec : ∀ s, exec i s = afFlags s (k s))
    (hk : ∀ s, k s (byteAt s 5) = .next (result s)) : AfRule i word result :=
  afRule_of_afCheck hdec (fun s _ => k s (byteAt s 5)) (fun s => (hexec s).trans (afFlags_eq s _)) hk

/-- A command that completes with a flag in RES and P. -/
theorem afRule_flag (j : Nat) (hexec : ∀ s, exec i s = afFlags s fun f => completeBit s (bit f j)) :
    AfRule i word fun s => succeededBit s (byteBit s 5 j) :=
  afRule_of_afFlags hdec _ hexec fun s => completeBit_flag s j

/-- A command that completes with an offset, and with a flag in P. -/
theorem afRule_offset {off : Nat → Nat} {v : State → Nat} (j : Nat)
    (hexec : ∀ s, exec i s = afFlags s fun f => complete s (off f) (bit f j == 1))
    (hoff : ∀ s, off (byteAt s 5) = v s) : AfRule i word fun s => succeeded s (v s) (flagOf s j) :=
  afRule_of_afFlags hdec _ hexec fun s => complete_flag j (hoff s)

/-- A timestamp command whose window `off` stands at the fixed index `w` where the PCR flag is set. -/
theorem afRule_timestamp {off : Nat → Nat} {w : Nat} (hw : w + 6 ≤ 188) (hoff : ∀ f, fPcr f = 1 → off f = w)
    (hexec : ∀ s, exec i s = afFlags s fun f =>
      if fPcr f = 1 then decodePcr s (off f) fun t => complete s t true else complete s 0 false) :
    AfRule i word fun s =>
      if flagOf s 4 then succeeded s (pcrValue (s.pb.memRead w 4) (s.pb.memRead (w + 4) 2)) true
      else succeeded s 0 false := by
  refine afRule_of_afFlags hdec _ hexec fun s => ?_
  have hset : fPcr (byteAt s 5) = 1 ↔ flagOf s 4 = true := bit_flags_eq_one_iff s 4
  by_cases hf : flagOf s 4 = true
  · rw [if_pos (hset.2 hf), if_pos hf, hoff _ (hset.2 hf), decodePcr_eq hw]; rfl
  · rw [if_neg (hset.not.2 hf), if_neg hf]; rfl

/-- A command that is AF_CHECK, TPD_CHECK and then its own part on the flags byte and `tpd_len`. -/
theorem tpdRule_of_tpdCheck (k : State → Nat → Option Nat → Outcome)
    (hexec : ∀ s, exec i s = afFlags s fun f => tpdCheck s f (k s f))
    (hk : ∀ s, k s (byteAt s 5) (tpdLen? s) = .next (result s)) : TpdRule i word result := by
  have hcheck : ∀ s, exec i s = afCheck s fun _ => tpdCheck s (byteAt s 5) (k s (byteAt s 5)) := fun s =>
    (hexec s).trans (afFlags_eq s _)
  exact ⟨hdec, fun s h ht => by rw [hcheck, afCheck_of_afReadable _ h, tpdCheck_of_tpdReadable _ ht, hk],
    fun s h => by rw [hcheck, afCheck_of_not_hasAf _ h],
    fun s h hl => by rw [hcheck, afCheck_of_long _ h hl],
    fun s h ht => by rw [hcheck, afCheck_of_afReadable _ h, tpdCheck_of_not_tpdReadable _ ht]⟩

end

/-! ### What AF_CHECK guards (R131) -/

/-- AF_CHECK decides how the command fails, and TPD_CHECK for TPDLEN and OFFEXT. -/
def AfGuarded (i : Instr) : Prop := ∀ s : State,
  (afcOf s = 0 ∨ afcOf s = 1 → exec i s = .next (failed s .noaf)) ∧
  (afcOf s = 2 ∨ afcOf s = 3 → 183 < afLenOf s → exec i s = .next (failed s .oob)) ∧
  (afcOf s = 2 ∨ afcOf s = 3 → afLenOf s ≤ 183 → (i ≠ .tpdlen ∧ i ≠ .offext ∨ TpdReadable s) →
    ∃ t : State, exec i s = .next t ∧ t.err = .none)

theorem not_hasAf_of_afcOf {s : State} (h : afcOf s = 0 ∨ afcOf s = 1) : ¬ HasAf s := by unfold HasAf; omega

section
variable {i : Instr} {word : Word} {result : State → State} (hok : ∀ s, (result s).err = .none)
include hok

theorem afGuarded_of_afRule (h : AfRule i word result) : AfGuarded i := by
  obtain ⟨_, hread, hnoaf, hoob⟩ := h
  exact fun s => ⟨fun hafc => hnoaf s (not_hasAf_of_afcOf hafc), hoob s,
    fun haf hl _ => ⟨result s, hread s ⟨haf, hl⟩, hok s⟩⟩

theorem afGuarded_of_tpdRule (hi : ¬ (i ≠ .tpdlen ∧ i ≠ .offext)) (h : TpdRule i word result) : AfGuarded i := by
  obtain ⟨_, hread, hnoaf, hoob, _⟩ := h
  exact fun s => ⟨fun hafc => hnoaf s (not_hasAf_of_afcOf hafc), hoob s,
    fun haf hl htpd => ⟨result s, hread s ⟨haf, hl⟩ (htpd.resolve_left hi), hok s⟩⟩

end

/-- A command that completes in two ways, by a flag. -/
theorem err_ite_succeeded (s : State) (c : Bool) (r r' : Nat) (p p' : Bool) :
    (if c then succeeded s r p else succeeded s r' p').err = .none := by cases c <;> rfl

/-! ### The payload window (R151) -/

section
variable {s : State} (k : Nat → Nat → Outcome)

theorem payloadWindow_of_not_hasAf (h : ¬ HasAf s) : payloadWindow s k = k 4 (hasPayload s).toNat := by
  rw [← hasPl_eq_hasPayload]
  obtain ⟨_, heq⟩ | ⟨h1, _⟩ | ⟨h1, _⟩ := payloadWindow_cases s k
  · exact heq
  · exact absurd (hasAf_eq_one_iff.1 h1) h
  · exact absurd (hasAf_eq_one_iff.1 h1) h

theorem payloadWindow_of_long (h : HasAf s) (hl : 183 < afLenOf s) : payloadWindow s k = .next (failed s .oob) := by
  obtain ⟨h0, _⟩ | ⟨_, _, heq⟩ | ⟨_, hle, _⟩ := payloadWindow_cases s k
  · exact absurd h (not_hasAf_of_hasAf_eq_zero h0)
  · exact heq
  · exact absurd hl (Nat.not_lt.2 hle)

theorem payloadWindow_of_afReadable (h : AfReadable s) :
    payloadWindow s k = k (4 + (afLenOf s + 1)) (hasPayload s).toNat := by
  rw [← hasPl_eq_hasPayload]
  obtain ⟨h0, _⟩ | ⟨_, hlt, _⟩ | ⟨_, _, heq⟩ := payloadWindow_cases s k
  · exact absurd h.1 (not_hasAf_of_hasAf_eq_zero h0)
  · exact absurd hlt (Nat.not_lt.2 h.2)
  · exact heq

end

/-- PLOFF and PLLEN complete with has_payload in P. -/
theorem complete_toNat_beq_one (s : State) (r : Nat) (p : Bool) :
    complete s r (p.toNat == 1) = .next (succeeded s r p) := by cases p <;> rfl

theorem succeeded_res_toNat (s : State) {r : Nat} (p : Bool) (h : r ≤ 188) : (succeeded s r p).res.toNat = r :=
  Nat.mod_eq_of_lt (h.trans_lt (by decide))

end Sys2Proof.Machine
end

section
/-! PROOFS. The statements about the adaptation-field and payload-window commands (42_adaptation.md). -/

namespace Sys2Proof.Machine

open Sys2Proof.Safety

/-- Settles O41: L is what AF_CHECK hands on, and the flags byte is read after it. -/
theorem aflenAndAfflagsGiveTheirByte : Obligations.AflenAndAfflagsGiveTheirByte :=
  ⟨afRule_of_afCheck (by decide) (fun s l => complete s l false) (fun _ => rfl) fun _ => rfl,
    afRule_of_afFlags (by decide) (fun s f => complete s f false) (fun _ => rfl) fun _ => rfl⟩

/-- Settles O42: each command completes with its own bit of the flags byte. -/
theorem afFlagCommandsGiveTheirBit : Obligations.AfFlagCommandsGiveTheirBit :=
  ⟨afRule_flag (by decide) 7 fun _ => rfl, afRule_flag (by decide) 6 fun _ => rfl,
    afRule_flag (by decide) 5 fun _ => rfl, afRule_flag (by decide) 4 fun _ => rfl,
    afRule_flag (by decide) 3 fun _ => rfl, afRule_flag (by decide) 2 fun _ => rfl,
    afRule_flag (by decide) 1 fun _ => rfl, afRule_flag (by decide) 0 fun _ => rfl⟩

/-- Settles O43: the splice byte stands inside the frame, so its read never faults. -/
theorem spliceGivesTheCountdownByte : Obligations.SpliceGivesTheCountdownByte := by
  refine ⟨afRule_of_afFlags (by decide) _ (fun _ => rfl) fun s => ?_, offsetOf_two_le⟩
  have hle := offsetOf_two_le s
  have hoff : offSpl (byteAt s 5) = offsetOf s 2 := offSpl_flags s
  have hset : fSpl (byteAt s 5) = 1 ↔ flagOf s 2 = true := bit_flags_eq_one_iff s 2
  by_cases hf : flagOf s 2 = true
  · rw [if_pos (hset.2 hf), if_pos hf, hoff, memRead_one (by omega)]; rfl
  · rw [if_neg (hset.not.2 hf), if_neg hf]; rfl

/-- Settles O44: TPD_CHECK hands on the length byte where the flag is set. -/
theorem tpdlenGivesTheLengthByte : Obligations.TpdlenGivesTheLengthByte := by
  refine tpdRule_of_tpdCheck (by decide) _ (fun _ => rfl) fun s => ?_
  rw [tpdLen?]
  cases flagOf s 1 <;> rfl

/-- Settles O45: the model's offsets are the running sums of the present sub-fields. -/
theorem offsetCommandsGiveTheCumulativeOffsets : Obligations.OffsetCommandsGiveTheCumulativeOffsets :=
  ⟨afRule_offset (by decide) 4 (fun _ => rfl) fun _ => rfl,
    afRule_offset (by decide) 3 (fun _ => rfl) offOpcr_flags,
    afRule_offset (by decide) 2 (fun _ => rfl) offSpl_flags,
    afRule_offset (by decide) 1 (fun _ => rfl) offTpd_flags⟩

/-- Settles O46: the extension stands after all present sub-fields. -/
theorem offextGivesTheExtensionOffset : Obligations.OffextGivesTheExtensionOffset :=
  ⟨tpdRule_of_tpdCheck (by decide) _ (fun _ => rfl) fun s => complete_flag 0 (offExt_flags s),
    fun _ => extOffsetOf_le⟩

/-- Settles O40: every one of the commands follows its family's rule. -/
theorem afCheckGuardsEveryAfCommand : Obligations.AfCheckGuardsEveryAfCommand := by
  obtain ⟨aflen, afflags⟩ := aflenAndAfflagsGiveTheirByte
  obtain ⟨disc, rai, espri, haspcr, hasopcr, hasspl, hastpd, hasext⟩ := afFlagCommandsGiveTheirBit
  obtain ⟨offpcr, offopcr, offspl, offtpd⟩ := offsetCommandsGiveTheCumulativeOffsets
  have pcr : AfGuarded .pcr := afGuarded_of_afRule (fun _ => err_ite_succeeded ..)
    (afRule_timestamp (word := 0x30000000#32) (by decide) (by decide) (fun _ _ => rfl) fun _ => rfl)
  have opcr : AfGuarded .opcr := afGuarded_of_afRule (fun _ => err_ite_succeeded ..)
    (afRule_timestamp (word := 0x31000000#32) (by decide) (by decide) (fun _ => offOpcr_of_fPcr) fun _ => rfl)
  have splice : AfGuarded .splice :=
    afGuarded_of_afRule (fun _ => err_ite_succeeded ..) spliceGivesTheCountdownByte.1
  have tpdlen : AfGuarded .tpdlen :=
    afGuarded_of_tpdRule (fun _ => err_ite_succeeded ..) (by decide) tpdlenGivesTheLengthByte
  have offext : AfGuarded .offext :=
    afGuarded_of_tpdRule (fun _ => rfl) (by decide) offextGivesTheExtensionOffset.1
  show ∀ i ∈ afCommands, AfGuarded i
  simp only [afCommands, List.forall_mem_cons]
  exact ⟨afGuarded_of_afRule (fun _ => rfl) aflen, afGuarded_of_afRule (fun _ => rfl) afflags,
    afGuarded_of_afRule (fun _ => rfl) disc, afGuarded_of_afRule (fun _ => rfl) rai,
    afGuarded_of_afRule (fun _ => rfl) espri, afGuarded_of_afRule (fun _ => rfl) haspcr,
    afGuarded_of_afRule (fun _ => rfl) hasopcr, afGuarded_of_afRule (fun _ => rfl) hasspl,
    afGuarded_of_afRule (fun _ => rfl) hastpd, afGuarded_of_afRule (fun _ => rfl) hasext, pcr, opcr, splice, tpdlen,
    afGuarded_of_afRule (fun _ => rfl) offpcr, afGuarded_of_afRule (fun _ => rfl) offopcr,
    afGuarded_of_afRule (fun _ => rfl) offspl, afGuarded_of_afRule (fun _ => rfl) offtpd, offext,
    List.forall_mem_nil _⟩

/-- Settles O47: each offset is the one before it, moved up by the sub-field between them where that is present. -/
theorem presentSubFieldsDoNotOverlap : Obligations.PresentSubFieldsDoNotOverlap := by
  intro s haf htpd
  obtain ⟨⟨_, offpcr, _⟩, ⟨_, offopcr, _⟩, ⟨_, offspl, _⟩, ⟨_, offtpd, _⟩⟩ :=
    offsetCommandsGiveTheCumulativeOffsets
  obtain ⟨⟨_, offext, _⟩, _⟩ := offextGivesTheExtensionOffset
  refine ⟨_, _, _, _, _, offpcr s haf, offopcr s haf, offspl s haf, offtpd s haf, offext s haf htpd, ?_⟩
  have h1 : offsetOf s 1 = offsetOf s 0 + if flagOf s 4 then 6 else 0 := offsetOf_succ s (by decide)
  have h2 : offsetOf s 2 = offsetOf s 1 + if flagOf s 3 then 6 else 0 := offsetOf_succ s (by decide)
  have h3 : offsetOf s 3 = offsetOf s 2 + if flagOf s 2 then 1 else 0 := offsetOf_succ s (by decide)
  have hext := extOffsetOf_eq s
  have hle3 := offsetOf_three_le s
  have hlext := extOffsetOf_le htpd
  simp (disch := omega) only [succeeded_res_toNat]
  refine ⟨rfl, rfl, rfl, rfl, rfl, fun hf => ?_, fun hf => ?_, fun hf => ?_, fun hf => ?_, fun hf => ?_⟩
  · rw [h1, if_pos hf]
  · rw [h2, if_pos hf]
  · rw [h3, if_pos hf]
  · rw [hext, if_pos hf, tpdLenOf, Nat.add_assoc]
  · rw [hext, hf]; rfl

/-- Settles O48: the window starts after the header, or after the adaptation field. -/
theorem payloadWindowCommands : Obligations.PayloadWindowCommands := by
  have ploff : ∀ s, exec .ploff s = payloadWindow s fun start pl => complete s start (pl == 1) := fun _ => rfl
  have pllen : ∀ s, exec .pllen s = payloadWindow s fun start pl => complete s (188 - start) (pl == 1) := fun _ => rfl
  refine ⟨by decide, by decide, fun s haf => ?_, fun s haf hl => ?_, fun s haf hl => ?_⟩
  · simp only [ploff, pllen, payloadWindow_of_not_hasAf _ haf, complete_toNat_beq_one, and_self]
  · simp only [ploff, pllen, payloadWindow_of_afReadable _ ⟨haf, hl⟩, complete_toNat_beq_one, and_self]
  · simp only [ploff, pllen, payloadWindow_of_long _ haf hl, and_self]

/-- Settles O49: the length is what the start leaves of the 188 bytes. -/
theorem payloadWindowEndsThePacket : Obligations.PayloadWindowEndsThePacket := by
  obtain ⟨_, _, noField, field, _⟩ := payloadWindowCommands
  refine fun s => ⟨fun haf hl => ?_, fun haf => ?_⟩
  · obtain ⟨hoff, hlen⟩ := field s haf hl
    refine ⟨_, _, hoff, hlen, ?_⟩
    rw [succeeded_res_toNat _ _ (by omega), succeeded_res_toNat _ _ (by omega)]
    unfold afLenOf at hl ⊢
    omega
  · obtain ⟨hoff, hlen⟩ := noField s haf
    exact ⟨_, _, hoff, hlen, rfl, rfl⟩

end Sys2Proof.Machine
end

section
/-! SUPPORT. The timestamps and NANOS: the timestamp of a window, the rule of NANOS, and a bound on RES after every
command but NOP and NANOS (43_pcr.md R160, R164, R165). -/

namespace Sys2Proof.Machine

open Sys2Proof.Safety

/-! ### Values that are not cut off -/

theorem memRead_lt (m : Memory) (i n : Nat) : m.memRead i n < 2 ^ (8 * n) := by
  simpa [Memory.memRead] using bigEndian_lt (m.slice i n)

/-- A result below 2^64 fits RES. -/
theorem succeeded_res_toNat_of_lt (s : State) {r : Nat} (p : Bool) (h : r < 2 ^ 64) :
    (succeeded s r p).res.toNat = r := by
  rw [succeeded_res, BitVec.toNat_ofNat, Nat.mod_eq_of_lt h]

/-! ### The timestamp of a window (R160, R166) -/

/-- The two reads of a timestamp window, with its base and its extension. -/
theorem pcrValue_eq_timestampAt (s : State) (o : Nat) :
    pcrValue (s.pb.memRead o 4) (s.pb.memRead (o + 4) 2) = timestampAt s o := by
  have hlow : beRead s (o + 4) 2 = byteAt s (o + 4) * 2 ^ 8 + byteAt s (o + 5) := by simp [beRead, List.range_succ]
  have hlast : byteAt s (o + 5) < 2 ^ 8 := (s.pb.readByte (o + 5)).isLt
  have hbit : bit (beRead s (o + 4) 2) 15 = (byteBit s (o + 4) 7).toNat := by
    rw [byteBit, ← bit_toNat, ← byteAt, bit_eq, bit_eq]
    omega
  have hext : bits (beRead s (o + 4) 2) 8 0 = beRead s (o + 4) 2 % 512 := by rw [bits_eq]; simp
  rw [memRead_eq_beRead, memRead_eq_beRead, pcrValue, hbit, hext, timestampAt, Nat.mul_comm 300]

/-- `afRule_timestamp` by the timestamp of the window. -/
theorem afRule_timestampAt {i : Instr} {word : Word} (hdec : decode word = .command i) {off : Nat → Nat} {w : Nat}
    (hw : w + 6 ≤ 188) (hoff : ∀ f, fPcr f = 1 → off f = w)
    (hexec : ∀ s, exec i s = afFlags s fun f =>
      if fPcr f = 1 then decodePcr s (off f) fun t => complete s t true else complete s 0 false) :
    AfRule i word fun s => if flagOf s 4 then succeeded s (timestampAt s w) true else succeeded s 0 false := by
  simpa only [pcrValue_eq_timestampAt] using afRule_timestamp hdec hw hoff hexec

theorem timestampAt_le (s : State) (o : Nat) : timestampAt s o ≤ 2576980377811 := by
  rw [← pcrValue_eq_timestampAt]
  exact pcrValue_le (memRead_lt s.pb o 4)

/-! ### NANOS (R164, R165) -/

/-- The threshold of OVF. -/
theorem two_pow_64_le_nanos_iff (t : Nat) : 2 ^ 64 ≤ t * 1000 / 27 ↔ 498062089990157894 ≤ t := by omega

theorem exec_nanos_of_lt {s : State} (h : s.res.toNat < 498062089990157894) :
    exec .nanos s = .next (succeeded s (s.res.toNat * 1000 / 27) false) :=
  if_neg ((two_pow_64_le_nanos_iff _).not.2 (Nat.not_le.2 h))

theorem exec_nanos_of_le {s : State} (h : 498062089990157894 ≤ s.res.toNat) :
    exec .nanos s = .next (failed s .ovf) :=
  if_pos ((two_pow_64_le_nanos_iff _).2 h)

theorem nanos_lt_two_pow_64 {t : Nat} (h : t < 498062089990157894) : t * 1000 / 27 < 2 ^ 64 :=
  Nat.lt_of_not_le ((two_pow_64_le_nanos_iff t).not.2 (Nat.not_le.2 h))

/-- The formula of R164 in lowest terms. -/
theorem nanos_eq_mul_pow_div (t : Nat) : t * 1000 / 27 = t * 10 ^ 9 / (27 * 10 ^ 6) := by
  rw [show t * 10 ^ 9 = t * 1000 * 10 ^ 6 by ring, Nat.mul_div_mul_right _ _ (by decide)]

/-- NANOS on a RES below 2^42, which the largest timestamp is. -/
theorem exec_nanos_of_lt_two_pow_42 {s : State} (h : s.res.toNat < 2 ^ 42) :
    ∃ u, exec .nanos s = .next u ∧ u.err = .none ∧ u.res.toNat = s.res.toNat * 1000 / 27 :=
  have hlt : s.res.toNat < 498062089990157894 := h.trans (by decide)
  ⟨_, exec_nanos_of_lt hlt, rfl, succeeded_res_toNat_of_lt s false (nanos_lt_two_pow_64 hlt)⟩

/-! ### A bound on RES -/

/-- A command that ends with at most the largest timestamp in RES. -/
def ResFits (o : Outcome) : Prop := ∀ t, o = .next t → t.res.toNat ≤ 2576980377811

theorem ResFits.complete {s : State} {r : Nat} (p : Bool) (h : r ≤ 2576980377811) : ResFits (complete s r p) := by
  rintro _ ⟨rfl⟩
  exact (Nat.mod_le r _).trans h

theorem ResFits.raise (s : State) (e : ErrCode) : ResFits (raise s e) := by
  rintro _ ⟨rfl⟩
  exact Nat.zero_le _

theorem ResFits.ite {c : Prop} [Decidable c] {o o' : Outcome} (h : ResFits o) (h' : ResFits o') :
    ResFits (if c then o else o') := by
  split
  · exact h
  · exact h'

theorem ResFits.complete_bit (s : State) (v i : Nat) : ResFits (completeBit s (bit v i)) :=
  .complete _ ((bit_lt_two v i).le.trans (by decide))

/-- A 32-bit CRC. -/
theorem ResFits.complete_word (s : State) (c : Word) (p : Bool) : ResFits (Machine.complete s c.toNat p) :=
  .complete p (c.isLt.le.trans (by decide))

/-! ### The shared operations -/

theorem bits_le (v hi lo : Nat) : bits v hi lo ≤ v := (Nat.mod_le _ _).trans (Nat.div_le_self _ _)

section
variable {s : State}

theorem resFits_readBytes {i n : Nat} {k : List Byte → Outcome} (hk : ∀ bs, bs.length = n → ResFits (k bs)) :
    ResFits (readBytes s i n k) := by
  intro t h
  obtain ⟨_, h⟩ := readBytes_next h
  exact hk _ (Memory.length_slice ..) t h

theorem resFits_memRead {i n : Nat} {k : Nat → Outcome} (hk : ∀ v < 2 ^ (8 * n), ResFits (k v)) :
    ResFits (memRead s i n k) :=
  resFits_readBytes fun bs hlen => hk _ (hlen ▸ bigEndian_lt bs)

theorem resFits_readHeader {k : Nat → Outcome} (hk : ∀ w < 2 ^ 32, ResFits (k w)) : ResFits (readHeader s k) :=
  resFits_memRead hk

/-- A header command that gives a field of the header word. -/
theorem resFits_headerField (hi lo : Nat) : ResFits (readHeader s fun w => complete s (bits w hi lo) false) :=
  resFits_readHeader fun w hw => .complete false ((bits_le w hi lo).trans (by omega))

/-- A header command that gives one bit of the header word. -/
theorem resFits_headerBit (n : Nat) : ResFits (readHeader s fun w => completeBit s (bit w n)) :=
  resFits_readHeader fun w _ => .complete_bit s w n

theorem resFits_afCheck {k : Nat → Outcome} (hk : ∀ l < 2 ^ 8, ResFits (k l)) : ResFits (afCheck s k) := by
  refine resFits_readHeader fun _ _ => .ite (.raise s _) ?_
  exact resFits_memRead fun l hl => .ite (.raise s _) (hk l hl)

theorem resFits_afFlags {k : Nat → Outcome} (hk : ∀ f < 2 ^ 8, ResFits (k f)) : ResFits (afFlags s k) :=
  resFits_afCheck fun _ _ => resFits_memRead hk

/-- A command that gives one flag of the adaptation field. -/
theorem resFits_flagBit (n : Nat) : ResFits (afFlags s fun f => completeBit s (bit f n)) :=
  resFits_afFlags fun f _ => .complete_bit s f n

/-- A command that completes with an offset, which lies inside the packet. -/
theorem resFits_offset {off : Nat → Nat} {p : Nat → Bool} (hoff : ∀ f, off f ≤ 188) :
    ResFits (afFlags s fun f => complete s (off f) (p f)) :=
  resFits_afFlags fun f _ => .complete _ ((hoff f).trans (by decide))

theorem resFits_tpdCheck {f : Nat} {k : Option Nat → Outcome} (hn : ResFits (k none))
    (hk : ∀ len < 2 ^ 8, ResFits (k (some len))) : ResFits (tpdCheck s f k) :=
  .ite (resFits_memRead fun len hlen => .ite (.raise s _) (hk len hlen)) hn

theorem resFits_payloadWindow {k : Nat → Nat → Outcome} (hk : ∀ start pl, start ≤ 260 → ResFits (k start pl)) :
    ResFits (payloadWindow s k) :=
  resFits_readHeader fun _ _ =>
    .ite (resFits_memRead fun _ hl => .ite (.raise s _) (hk _ _ (by simp only [Config.hdrBytes]; omega)))
      (hk _ _ (by decide))

/-- PCR and OPCR, whatever the offset of their window. -/
theorem resFits_timestamp {off : Nat → Nat} :
    ResFits (afFlags s fun f =>
      if fPcr f = 1 then decodePcr s (off f) fun t => complete s t true else complete s 0 false) :=
  resFits_afFlags fun _ _ =>
    .ite (resFits_memRead fun _ hhigh => resFits_memRead fun _ _ => .complete true (pcrValue_le hhigh))
      (.complete false (by decide))

theorem resFits_crcCalc {start len : Nat} {k : Word → Outcome} (hk : ∀ c, ResFits (k c)) :
    ResFits (crcCalc s start len k) :=
  .ite (hk _) (resFits_readBytes fun _ _ => hk _)

end

/-! ### The commands -/

/-- The largest RES that a command computes from PB is the largest timestamp. -/
theorem resFits_exec {i : Instr} (s : State) (hnanos : i ≠ .nanos) (hnop : i ≠ .nop) : ResFits (exec i s) := by
  cases i with
  | nop => exact absurd rfl hnop
  | hdr => exact resFits_readHeader fun _ hw => .complete false (hw.le.trans (by decide))
  | sync => exact resFits_headerField 31 24
  | tei => exact resFits_headerBit 23
  | pusi => exact resFits_headerBit 22
  | tpri => exact resFits_headerBit 21
  | pid => exact resFits_headerField 20 8
  | tsc => exact resFits_headerField 7 6
  | afc => exact resFits_headerField 5 4
  | cc => exact resFits_headerField 3 0
  | hasaf => exact resFits_headerBit 5
  | haspl => exact resFits_headerBit 4
  | aflen => exact resFits_afCheck fun _ hl => .complete false (by omega)
  | afflags => exact resFits_afFlags fun _ hf => .complete false (by omega)
  | disc => exact resFits_flagBit 7
  | rai => exact resFits_flagBit 6
  | espri => exact resFits_flagBit 5
  | haspcr => exact resFits_flagBit 4
  | hasopcr => exact resFits_flagBit 3
  | hasspl => exact resFits_flagBit 2
  | hastpd => exact resFits_flagBit 1
  | hasext => exact resFits_flagBit 0
  | pcr => exact resFits_timestamp
  | opcr => exact resFits_timestamp
  | splice =>
    exact resFits_afFlags fun _ _ =>
      .ite (resFits_memRead fun _ hv => .complete true (by omega)) (.complete false (by decide))
  | tpdlen =>
    exact resFits_afFlags fun _ _ =>
      resFits_tpdCheck (.complete false (by decide)) fun _ hlen => .complete true (by omega)
  | offpcr => exact resFits_offset fun _ => (by decide : 6 ≤ 188)
  | offopcr => exact resFits_offset fun f => (offOpcr_le f).trans (by decide)
  | offspl => exact resFits_offset fun f => (offSpl_le f).trans (by decide)
  | offtpd => exact resFits_offset fun f => (offTpd_le f).trans (by decide)
  | offext =>
    exact resFits_afFlags fun f _ =>
      have ho := offTpd_le f
      resFits_tpdCheck (.complete _ (by simp only [offExt]; omega)) fun _ hlen =>
        .complete _ (by simp only [offExt]; omega)
  | ploff => exact resFits_payloadWindow fun _ _ h => .complete _ (h.trans (by decide))
  | pllen => exact resFits_payloadWindow fun start _ _ => .complete _ ((Nat.sub_le 188 start).trans (by decide))
  | nanos => exact absurd rfl hnanos
  | crc32 start len => exact .ite (.raise s _) (resFits_crcCalc fun c => .complete_word s c false)
  | crcchk start len =>
    exact .ite (.raise s _) (.ite (.complete false (by decide))
      (resFits_crcCalc fun c => resFits_memRead fun _ _ => .complete_word s c _))

end Sys2Proof.Machine
end

section
/-! PROOFS. The statements about the timestamps and NANOS (43_pcr.md). -/

namespace Sys2Proof.Machine

open Sys2Proof.Safety

/-- Settles O50: PCR's window stands at byte 6. -/
theorem pcrGivesTheTimestamp : Obligations.PcrGivesTheTimestamp :=
  afRule_timestampAt (by decide) (by decide) (fun _ _ => rfl) fun _ => rfl

/-- Settles O51: behind the PCR flag OPCR's window stands at byte 12, after PCR's. -/
theorem opcrIsGatedOnThePcrFlag : Obligations.OpcrIsGatedOnThePcrFlag :=
  afRule_timestampAt (by decide) (by decide) (fun _ => offOpcr_of_fPcr) fun _ => rfl

/-- Settles O52: base and extension are quotient and remainder exactly when the extension is below the divisor. -/
theorem timestampComposition : Obligations.TimestampComposition := by
  intro s haf hf i o hi
  have hexec : exec i s = .next (succeeded s (timestampAt s o) true) := by
    obtain ⟨_, pcr, _⟩ := pcrGivesTheTimestamp
    obtain ⟨_, opcr, _⟩ := opcrIsGatedOnThePcrFlag
    obtain ⟨rfl, rfl⟩ | ⟨rfl, rfl⟩ := hi
    · exact (pcr s haf).trans (congrArg _ (if_pos hf))
    · exact (opcr s haf).trans (congrArg _ (if_pos hf))
  have hle := timestampAt_le s o
  refine ⟨_, hexec, ?_⟩
  rw [succeeded_res_toNat_of_lt s true (hle.trans_lt (by decide))]
  refine ⟨rfl, hle, hle.trans_lt (by decide), ?_⟩
  rw [Nat.div_mod_unique (by decide), timestampAt, Nat.add_comm]
  exact and_iff_right rfl

/-- Settles O53: the largest RES of the other commands is a timestamp, far below the threshold. -/
theorem nanosConvertsResOrOverflows : Obligations.NanosConvertsResOrOverflows :=
  ⟨by decide, fun s h => ⟨_, exec_nanos_of_lt h, rfl, succeeded_res_toNat_of_lt s false (nanos_lt_two_pow_64 h)⟩,
    fun _ => exec_nanos_of_le, two_pow_64_le_nanos_iff,
    fun _ s t hnanos hnop h => (resFits_exec s hnanos hnop t h).trans_lt (by decide)⟩

/-- Settles O54: a timestamp is below 2^42, where NANOS never overflows. -/
theorem nanosOfATimestampFits : Obligations.NanosOfATimestampFits := by
  refine ⟨fun i s t hi ht _ => ?_, fun s hs => ?_⟩
  · have hle : t.res.toNat ≤ 2576980377811 := by
      obtain rfl | rfl := hi
      · exact resFits_exec s (by decide) (by decide) t ht
      · exact resFits_exec s (by decide) (by decide) t ht
    obtain ⟨u, hu, herr, hres⟩ := exec_nanos_of_lt_two_pow_42 (s := t) (by omega)
    exact ⟨u, hu, herr, hres.trans (nanos_eq_mul_pow_div _), by omega, by omega⟩
  · obtain ⟨u, hu, herr, hres⟩ := exec_nanos_of_lt_two_pow_42 hs
    exact ⟨u, hu, herr, hres.trans (nanos_eq_mul_pow_div _), hres, by omega⟩

end Sys2Proof.Machine
end

section
/-! SUPPORT. The CRC commands: the word of format CR, the CRC of a range, and the byte step as a table look-up, of which
the residue law is the case of the table's first entry (44_crc.md R181 to R185). -/

namespace Sys2Proof.Machine

open Sys2Proof.Safety

/-! ### The word of format CR (30_encoding.md R79) -/

theorem decode_ofNat_of_mem_crMap {row : Nat × (Nat → Nat → Instr)} (hrow : row ∈ crMap) {opc : Nat}
    (hopc : row.1 * 2 ^ 24 = opc) {a b : Nat} (ha : a < 256) (hb : b < 256) :
    decode (BitVec.ofNat 32 (opc + a * 2 ^ 8 + b)) = .command (row.2 a b) := by
  obtain ⟨ho, hbits, hwf⟩ := encoding_of_mem_crMap row hrow a b
  have h := encodedCommandDecodesToItself (row.2 a b) (hwf.2 ⟨ha, hb⟩)
  rwa [encode, ho, hbits, hopc, ← Nat.add_assoc] at h

/-! ### The CRC of a range (R181) -/

/-- The CRC of a range as the byte-wise one, which is a word. -/
theorem crcOf_eq_toNat (s : State) (start n : Nat) :
    crcOf s start n = (if n < 4 then 0#32 else crcBytes (s.pb.slice start (n - 4))).toNat := by
  rw [crcOf, apply_ite BitVec.toNat, crcBytes_toNat, Memory.slice_eq_map]; rfl

theorem crcOf_lt (s : State) (start n : Nat) : crcOf s start n < 2 ^ 32 := by
  rw [crcOf_eq_toNat]; exact BitVec.isLt _

theorem crcOf_four (s : State) (start : Nat) : crcOf s start 4 = 0xFFFFFFFF := rfl

/-! ### How the commands end (R182, R183) -/

section
variable {start len : Nat} {s : State}

theorem not_rangeOutOfBounds (h : start + len ≤ 188) : ¬ rangeOutOfBounds start len = true :=
  (rangeOutOfBounds_iff start len).not.2 (Nat.not_lt.2 h)

theorem exec_crc32_of_le (h : start + len ≤ 188) :
    exec (.crc32 start len) s = .next (succeeded s (crcOf s start len) false) := by
  have hexec : exec (.crc32 start len) s = crcCalc s start len fun c => complete s c.toNat false :=
    if_neg (not_rangeOutOfBounds h)
  rw [hexec, crcCalc_eq h, ← crcOf_eq_toNat]; rfl

theorem exec_crc32_of_gt (h : 188 < start + len) : exec (.crc32 start len) s = .next (failed s .oob) :=
  if_pos ((rangeOutOfBounds_iff start len).2 h)

theorem exec_crcchk_of_le (h : start + len ≤ 188) (hl : 4 ≤ len) : exec (.crcchk start len) s =
    .next (succeeded s (crcOf s start len) (crcOf s start len == beRead s (start + len - 4) 4)) := by
  have hexec : exec (.crcchk start len) s =
      crcCalc s start len fun c => memRead s (start + len - 4) 4 fun t => complete s c.toNat (c.toNat == t) :=
    (if_neg (not_rangeOutOfBounds h)).trans (if_neg (Nat.not_lt.2 hl))
  rw [hexec, crcCalc_eq h, memRead_of_le (by omega), memRead_eq_beRead, ← crcOf_eq_toNat]; rfl

theorem exec_crcchk_of_short (h : start + len ≤ 188) (hl : len < 4) :
    exec (.crcchk start len) s = .next (succeeded s 0 false) :=
  (if_neg (not_rangeOutOfBounds h)).trans (if_pos hl)

theorem exec_crcchk_of_gt (h : 188 < start + len) : exec (.crcchk start len) s = .next (failed s .oob) :=
  if_pos ((rangeOutOfBounds_iff start len).2 h)

end

/-! ### The byte step by its table (R184) -/

theorem ofNat_mul_eq_topByte (b : Byte) : BitVec.ofNat 32 (b.toNat * 2 ^ 24) = topByte b := by
  rw [← topByte_toNat, BitVec.ofNat_toNat, BitVec.setWidth_eq]

theorem topByte_xor (a b : Byte) : topByte (a ^^^ b) = topByte a ^^^ topByte b := by
  rw [topByte, BitVec.setWidth_xor, BitVec.shiftLeft_xor_distrib]; rfl

theorem topByte_shiftLeft_eight (b : Byte) : topByte b <<< 8 = 0#32 := by
  rw [topByte, ← BitVec.shiftLeft_add]
  exact BitVec.shiftLeft_eq_zero (by decide)

/-- The accumulator without its top byte is below 2^24. -/
theorem xor_topByte_toNat_lt (acc : Word) : (acc ^^^ topByte (acc.extractLsb' 24 8)).toNat < 2 ^ 24 := by
  have htop : topByte (acc.extractLsb' 24 8) >>> 24 = acc >>> 24 := by
    have := acc.isLt
    apply BitVec.eq_of_toNat_eq
    simp only [BitVec.toNat_ushiftRight, topByte_toNat, BitVec.extractLsb'_toNat, Nat.shiftRight_eq_div_pow]
    omega
  have h0 : ((acc ^^^ topByte (acc.extractLsb' 24 8)) >>> 24).toNat = 0 := by
    rw [BitVec.ushiftRight_xor_distrib, htop, BitVec.xor_self]; rfl
  rw [BitVec.toNat_ushiftRight, Nat.shiftRight_eq_div_pow] at h0
  omega

/-- The byte joins the accumulator's top byte, and what lies below it only shifts. -/
theorem crcByte_topByte_xor (top b : Byte) {low : Word} (hlow : low.toNat < 2 ^ 24) :
    crcByte (topByte top ^^^ low) b = (low <<< 8) ^^^ crcByte (topByte (top ^^^ b)) 0#8 := by
  have hjoin : crcByte (topByte top ^^^ low ^^^ topByte b) 0#8 = crcByte (topByte top ^^^ low) b := by
    rw [crcByte, crcSteps_topByte, topByte_shiftLeft_eight, BitVec.xor_zero, crcByte]
  rw [← hjoin, xor_swap, ← topByte_xor, crcByte, crcSteps_xor_low 8 _ _ (by decide) hlow, BitVec.xor_comm, crcByte]

/-- The byte step is a shift and a look-up of the accumulator's top byte XOR the message byte. -/
theorem crcByte_eq_table (acc : Word) (b : Byte) :
    crcByte acc b = (acc <<< 8) ^^^ crcByte (topByte (acc.extractLsb' 24 8 ^^^ b)) 0#8 := by
  have h := crcByte_topByte_xor (acc.extractLsb' 24 8) b (xor_topByte_toNat_lt acc)
  rwa [BitVec.xor_comm acc, ← BitVec.xor_assoc, BitVec.xor_self, BitVec.zero_xor, BitVec.shiftLeft_xor_distrib,
    topByte_shiftLeft_eight, BitVec.zero_xor] at h

/-! ### A CRC over its own bytes (R185) -/

/-- A byte equal to the accumulator's top byte looks up 0. -/
theorem crcByte_of_top_eq {acc : Word} {b : Byte} (h : acc.toNat / 2 ^ 24 = b.toNat) : crcByte acc b = acc <<< 8 := by
  have hb : acc.extractLsb' 24 8 = b := by
    have := b.isLt
    apply BitVec.eq_of_toNat_eq
    rw [BitVec.extractLsb'_toNat, Nat.shiftRight_eq_div_pow]
    omega
  have hzero : crcByte (topByte 0#8) 0#8 = 0#32 := by decide
  rw [crcByte_eq_table, hb, BitVec.xor_self, hzero, BitVec.xor_zero]

/-- An accumulator that holds the coming bytes at its top, and nothing below them, is shifted out. -/
theorem foldl_crcByte_of_top_eq : ∀ (bs : List Byte) (acc : Word), bs.length ≤ 4 →
    acc.toNat = bigEndian bs * 2 ^ (32 - 8 * bs.length) → bs.foldl crcByte acc = 0#32
  | [], _, _, h => BitVec.eq_of_toNat_eq (by simpa [bigEndian] using h)
  | b :: bs, acc, hlen, h => by
    rw [List.length_cons] at hlen h
    have hplace : 2 ^ (8 * bs.length) * 2 ^ (32 - 8 * (bs.length + 1)) = 2 ^ 24 := by
      rw [← Nat.pow_add]; congr 1; omega
    have hnext : 2 ^ (32 - 8 * bs.length) = 2 ^ (32 - 8 * (bs.length + 1)) * 2 ^ 8 := by
      rw [← Nat.pow_add]; congr 1; omega
    have hrest : bigEndian bs * 2 ^ (32 - 8 * (bs.length + 1)) < 2 ^ 24 := by
      rw [← hplace]; exact Nat.mul_lt_mul_of_pos_right (bigEndian_lt bs) (Nat.two_pow_pos _)
    rw [bigEndian_cons, Nat.add_mul, Nat.mul_assoc, hplace] at h
    rw [List.foldl_cons, crcByte_of_top_eq (b := b) (by omega)]
    apply foldl_crcByte_of_top_eq bs _ (by omega)
    rw [BitVec.toNat_shiftLeft, Nat.shiftLeft_eq, hnext, ← Nat.mul_assoc]
    omega

/-- A CRC that goes on over the four bytes it spells is 0. -/
theorem crcOf_add_four_eq_zero {s : State} {start n : Nat} (hn : 4 ≤ n)
    (h : crcOf s start n = beRead s (start + n - 4) 4) : crcOf s start (n + 4) = 0 := by
  have hbytes : start + (n - 4) = start + n - 4 := by omega
  have hsum : n + 4 - 4 = n - 4 + 4 := by omega
  rw [crcOf_eq_toNat, if_neg (by omega), ← memRead_eq_beRead] at h
  rw [crcOf_eq_toNat, if_neg (by omega), hsum, Memory.slice_add, crcBytes_append, hbytes,
    foldl_crcByte_of_top_eq _ _ (Memory.length_slice ..).le (by simpa [Memory.memRead] using h)]
  rfl

theorem exec_crc32_add_four {s : State} {start n : Nat} (hn : 4 ≤ n) (hle : start + n + 4 ≤ 188)
    (h : crcOf s start n = beRead s (start + n - 4) 4) :
    exec (.crc32 start (n + 4)) s = .next (succeeded s 0 false) := by
  rw [exec_crc32_of_le (by omega), crcOf_add_four_eq_zero hn h]

end Sys2Proof.Machine
end

section
/-! PROOFS. The statements about the CRC commands (44_crc.md). -/

namespace Sys2Proof.Machine

open Sys2Proof.Safety

/-- Settles O56: inside the packet the command hands on the byte-wise CRC, which is the one over the message's bits. -/
theorem crc32GivesTheMessageCrc : Obligations.Crc32GivesTheMessageCrc :=
  ⟨fun _ _ => decode_ofNat_of_mem_crMap (row := (0x60, .crc32)) (by simp [crMap]) (by decide),
    fun _ _ _ => exec_crc32_of_le, fun _ _ _ => exec_crc32_of_gt⟩

/-- Settles O57: the trailer is read behind the CRC, and a range below 4 bytes has none. -/
theorem crcchkComparesTheTrailer : Obligations.CrcchkComparesTheTrailer :=
  ⟨fun _ _ => decode_ofNat_of_mem_crMap (row := (0x61, .crcchk)) (by simp [crMap]) (by decide),
    fun _ _ _ => exec_crcchk_of_le, fun _ _ _ => exec_crcchk_of_short, fun _ _ _ => exec_crcchk_of_gt⟩

/-- Settles O58: the byte joins the accumulator's top byte before the eight rounds, which only shift the rest. -/
theorem tableDrivenCrcIsEquivalent : Obligations.TableDrivenCrcIsEquivalent := by
  refine ⟨fun acc b => ?_, by decide, by decide, by decide⟩
  rw [ofNat_mul_eq_topByte]
  exact crcByte_eq_table acc b

/-- Settles O59: a CRC that goes on over its own bytes is shifted out; four bytes 0xFF spell the seed. -/
theorem crcResidueIsZero : Obligations.CrcResidueIsZero := by
  refine ⟨fun s t a n hn ha ht hres => exec_crc32_add_four hn ha ?_,
    fun s a ha hfill => exec_crc32_add_four (n := 4) (by decide) ha ?_⟩
  · rw [exec_crc32_of_le (by omega)] at ht
    cases ht
    have hfit : crcOf s a n < 2 ^ 64 := (crcOf_lt s a n).trans (by decide)
    rwa [succeeded_res_toNat_of_lt s false hfit] at hres
  · rw [crcOf_four, Nat.add_sub_cancel]
    simp (disch := omega) [beRead, List.range_succ, hfill]

end Sys2Proof.Machine
end

section
/-! SUPPORT. The ends of a decoded command other than NOP: it writes RES, or raises one of the codes that a command may
raise (60_exceptions.md R201, R203). ILL is not among them. -/

namespace Sys2Proof.Machine

/-- `complete(r, p)`, or `raise E` with one of NOAF, OOB and OVF; or the fault of a read outside PB. -/
inductive CommandEnd (s : State) : Outcome → Prop where
  | complete (r : Nat) (p : Bool) : CommandEnd s (.next (s.complete r p))
  | raise (e : ErrCode) (code : e = .noaf ∨ e = .oob ∨ e = .ovf) : CommandEnd s (.next (s.raise e))
  | fault (f : Fault) : CommandEnd s (.fault f)

/-- RES takes a value modulo 2^64. -/
theorem State.complete_mod (s : State) (r : Nat) (p : Bool) : s.complete (r % 2 ^ 64) p = s.complete r p := by
  have hres : BitVec.ofNat 64 (r % 2 ^ 64) = BitVec.ofNat 64 r := BitVec.eq_of_toNat_eq (Nat.mod_mod r _)
  rw [State.complete, hres, State.complete]

section
variable {s : State}

theorem CommandEnd.ite {c : Prop} [Decidable c] {o o' : Outcome} (h : CommandEnd s o) (h' : CommandEnd s o') :
    CommandEnd s (if c then o else o') := by
  split
  · exact h
  · exact h'

/-! ### The codes, by what each check finds -/

theorem commandEnd_noaf : CommandEnd s (raise s .noaf) := .raise _ (.inl rfl)

theorem commandEnd_oob : CommandEnd s (raise s .oob) := .raise _ (.inr (.inl rfl))

theorem commandEnd_ovf : CommandEnd s (raise s .ovf) := .raise _ (.inr (.inr rfl))

/-! ### The shared operations -/

theorem commandEnd_readBytes {i n : Nat} {k : List Byte → Outcome} (hk : ∀ bs, CommandEnd s (k bs)) :
    CommandEnd s (readBytes s i n k) :=
  .ite (hk _) (.fault _)

theorem commandEnd_memRead {i n : Nat} {k : Nat → Outcome} (hk : ∀ v, CommandEnd s (k v)) :
    CommandEnd s (memRead s i n k) :=
  commandEnd_readBytes fun _ => hk _

theorem commandEnd_readHeader {k : Nat → Outcome} (hk : ∀ h, CommandEnd s (k h)) : CommandEnd s (readHeader s k) :=
  commandEnd_memRead hk

theorem commandEnd_afCheck {k : Nat → Outcome} (hk : ∀ l, CommandEnd s (k l)) : CommandEnd s (afCheck s k) :=
  commandEnd_readHeader fun _ => .ite commandEnd_noaf (commandEnd_memRead fun l => .ite commandEnd_oob (hk l))

theorem commandEnd_afFlags {k : Nat → Outcome} (hk : ∀ f, CommandEnd s (k f)) : CommandEnd s (afFlags s k) :=
  commandEnd_afCheck fun _ => commandEnd_memRead hk

theorem commandEnd_tpdCheck {f : Nat} {k : Option Nat → Outcome} (hk : ∀ len, CommandEnd s (k len)) :
    CommandEnd s (tpdCheck s f k) :=
  .ite (commandEnd_memRead fun _ => .ite commandEnd_oob (hk _)) (hk none)

theorem commandEnd_payloadWindow {k : Nat → Nat → Outcome} (hk : ∀ start pl, CommandEnd s (k start pl)) :
    CommandEnd s (payloadWindow s k) :=
  commandEnd_readHeader fun _ => .ite (commandEnd_memRead fun _ => .ite commandEnd_oob (hk _ _)) (hk _ _)

theorem commandEnd_decodePcr {o : Nat} {k : Nat → Outcome} (hk : ∀ t, CommandEnd s (k t)) :
    CommandEnd s (decodePcr s o k) :=
  commandEnd_memRead fun _ => commandEnd_memRead fun _ => hk _

theorem commandEnd_crcCalc {start len : Nat} {k : Word → Outcome} (hk : ∀ c, CommandEnd s (k c)) :
    CommandEnd s (crcCalc s start len k) :=
  .ite (hk _) (commandEnd_readBytes fun _ => hk _)

end

/-! ### The commands -/

theorem commandEnd_execTpdlen (s : State) : CommandEnd s (execTpdlen s) :=
  commandEnd_afFlags fun _ => commandEnd_tpdCheck fun
    | some len => .complete len true
    | none => .complete 0 false

/-- Every command but NOP writes RES or raises NOAF, OOB or OVF. -/
theorem commandEnd_exec {i : Instr} (s : State) (hnop : i ≠ .nop) : CommandEnd s (exec i s) := by
  cases i with
  | nop => exact absurd rfl hnop
  | hdr | sync | tei | pusi | tpri | pid | tsc | afc | cc | hasaf | haspl =>
    exact commandEnd_readHeader fun _ => .complete _ _
  | aflen => exact commandEnd_afCheck fun _ => .complete _ _
  | afflags | disc | rai | espri | haspcr | hasopcr | hasspl | hastpd | hasext | offpcr | offopcr | offspl | offtpd =>
    exact commandEnd_afFlags fun _ => .complete _ _
  | pcr | opcr => exact commandEnd_afFlags fun _ => .ite (commandEnd_decodePcr fun _ => .complete _ _) (.complete _ _)
  | splice => exact commandEnd_afFlags fun _ => .ite (commandEnd_memRead fun _ => .complete _ _) (.complete _ _)
  | tpdlen => exact commandEnd_execTpdlen s
  | offext => exact commandEnd_afFlags fun _ => commandEnd_tpdCheck fun _ => .complete _ _
  | ploff => exact commandEnd_payloadWindow fun start pl => .complete start (pl == 1)
  | pllen => exact commandEnd_payloadWindow fun start pl => .complete (188 - start) (pl == 1)
  | nanos => exact .ite commandEnd_ovf (.complete _ _)
  | crc32 => exact .ite commandEnd_oob (commandEnd_crcCalc fun _ => .complete _ _)
  | crcchk =>
    exact .ite commandEnd_oob (.ite (.complete _ _)
      (commandEnd_crcCalc fun _ => commandEnd_memRead fun _ => .complete _ _))

end Sys2Proof.Machine
end

section
/-! PROOFS. The statements about errors and how a command ends (60_exceptions.md). -/

namespace Sys2Proof.Machine

open Sys2Proof.Safety

/-- Settles O9: NOP by `complete_keep`, every other command by its `CommandEnd`, an illegal word because it decodes to
no command. -/
theorem commandEndsPreciselyInOneWay : Obligations.CommandEndsPreciselyInOneWay := by
  refine ⟨fun i s => ?_, fun w s hp hw => ?_⟩
  · by_cases hnop : i = .nop
    · subst hnop
      exact ⟨_, exec_nop s, .inr (.inl ⟨rfl, rfl⟩)⟩
    · obtain ⟨t, ht⟩ := (ends_exec i s).next
      have hend : CommandEnd s (.next t) := ht ▸ commandEnd_exec s hnop
      refine ⟨t, ht, ?_⟩
      cases hend with
      | complete r p =>
        exact .inl ⟨r % 2 ^ 64, p, Nat.mod_lt _ (Nat.two_pow_pos _), hnop, (State.complete_mod s r p).symm⟩
      | raise e code => exact .inr (.inr ⟨e, code, rfl⟩)
  · obtain ⟨why, hd⟩ := decode_of_illegalWord hw
    exact engineTurn_of_illegal hp hd

/-- Settles O10, by the turn: the engine's turn always answers, and so do a host access and a reset. -/
theorem stepNeverStops : Obligations.StepNeverStops := by
  intro s
  match ha : s.agenda with
  | [] => rw [step_of_nil ha]; exact engineTurn_next s
  | .engine :: rest => rw [step_of_cons ha]; exact engineTurn_next _
  | .hostRead _ :: _ => exact ⟨_, step_of_cons ha⟩
  | .hostWrite _ _ :: _ => exact ⟨_, step_of_cons ha⟩
  | .reset :: _ => exact ⟨_, step_of_cons ha⟩

/-- Settles O19: the table of R201, row by row. -/
theorem errorCodesAreAsTabled : Obligations.ErrorCodesAreAsTabled := ⟨rfl, rfl, rfl, rfl, rfl⟩

end Sys2Proof.Machine
end

section
/-! SUPPORT. What a failing command leaves in RES, and a packet whose first bytes hold the reset fill (60_exceptions.md
R203; 70_reset_and_hazards.md R232). -/

namespace Sys2Proof.Machine

open Sys2Proof.Safety

/-- Only `raise E` leaves an error, and it writes 0 to RES. -/
theorem Ends.res_of_err_ne_none {s t : State} (h : Ends s (.next t)) (herr : t.err ≠ .none) : t.res = 0#64 := by
  obtain ⟨r, p, _, h⟩ | ⟨p, h⟩ | ⟨e, _, h⟩ := h
  · cases h; exact absurd rfl herr
  · cases h; exact absurd rfl herr
  · cases h; rfl

theorem exec_nanos_of_res_eq_zero {s : State} (h : s.res = 0#64) : exec .nanos s = .next (succeeded s 0 false) := by
  have h0 : s.res.toNat = 0 := congrArg BitVec.toNat h
  rw [exec_nanos_of_lt (h0 ▸ by decide), h0]

section
variable {s : State} (hfill : ∀ j, j < 5 → s.pb.readByte j = 0xFF#8)
include hfill

/-- The header word of the fill is all ones. -/
theorem memRead_header_of_fill : s.pb.memRead 0 4 = 0xFFFFFFFF := by
  rw [Memory.memRead_four, hfill 0 (by decide), hfill 1 (by decide), hfill 2 (by decide), hfill 3 (by decide)]
  rfl

/-- The fill announces an adaptation field and a payload. -/
theorem afcOf_of_fill : afcOf s = 3 := by rw [afcOf, byteAt, hfill 3 (by decide)]; rfl

/-- The fill announces more bytes than an adaptation field can have. -/
theorem afLenOf_of_fill : afLenOf s = 255 := by rw [afLenOf, byteAt, hfill 4 (by decide)]; rfl

end

end Sys2Proof.Machine
end

section
/-! PROOFS. The statements about reset and hazards (70_reset_and_hazards.md). -/

namespace Sys2Proof.Machine

open Sys2Proof.Safety

/-- Settles O31: host accesses do not disturb the pending command, so the engine's turn after them runs it on the PB
and RES it was accepted on. -/
theorem pendingCommandIsNotDisturbed : Obligations.PendingCommandIsNotDisturbed := by
  intro s w i accesses rest hb hp hd hagenda hall
  obtain ⟨t, hrun, hturn, hundisturbed⟩ := run_hostAccesses hagenda hall
  have same := hundisturbed hb
  obtain ⟨v, hv⟩ := (ends_exec i s).next
  obtain ⟨u, hu⟩ := (ends_exec i { t with agenda := rest }).next
  have done := completed_exec hu
  have hstep : step t = .next u := (step_of_commandPending (same.pend.trans hp) hd (.inl hturn)).trans hu
  obtain ⟨hres, hpu, herr⟩ := results_exec (s := { t with agenda := rest }) same.pb same.res hu hv
  exact ⟨t, u, v, hrun, same.pb, same.cmd, same.pend, same.busy.trans hb, same.res, same.p, same.err,
    run_succ_last hrun hstep, hv, hres, hpu, herr, (done.pb.trans same.pb).trans (completed_exec hv).pb.symm,
    done.agenda⟩

/-- Settles O55: a failure leaves RES 0, of which NANOS makes 0; NOP leaves the RES that NANOS reads. -/
theorem nanosAfterAFailureGivesZero : Obligations.NanosAfterAFailureGivesZero := by
  refine ⟨fun i s t ht herr => ?_, fun s => ?_⟩
  · have hend : Ends s (.next t) := ht ▸ ends_exec i s
    exact exec_nanos_of_res_eq_zero (hend.res_of_err_ne_none herr)
  · obtain ⟨u, hu⟩ := (ends_exec .nanos (s.completeKeep false)).next
    obtain ⟨v, hv⟩ := (ends_exec .nanos s).next
    exact ⟨_, u, v, exec_nop s, hu, hv, results_exec (State.completeKeep_pb s _) (State.completeKeep_res s _) hu hv⟩

/-- Settles O60: the fill is a header word of all ones with an adaptation field whose L of 255 fails AF_CHECK. -/
theorem commandsOnTheResetFill : Obligations.CommandsOnTheResetFill := by
  refine ⟨fun s hfill => ⟨?_, ?_, fun i hi => ?_⟩, fun j _ => Memory.readByte_nil j⟩
  · rw [exec_hdr, memRead_header_of_fill hfill]; rfl
  · exact readHeader_complete hAfc (fun _ => false) ((hAfc_eq_afcOf s).trans (afcOf_of_fill hfill))
  · obtain ⟨_, hoob, _⟩ := afCheckGuardsEveryAfCommand i hi s
    exact hoob (.inr (afcOf_of_fill hfill)) (by rw [afLenOf_of_fill hfill]; decide)

/-- Settles O26: the reset turn gives the reset state (O27), but for the host's own two fields. -/
theorem resetReturnsEveryPieceOfState : Obligations.ResetReturnsEveryPieceOfState :=
  fun _ _ h => ⟨_, step_of_cons h, Memory.readByte_nil, rfl, rfl, rfl, rfl, rfl, rfl, rfl, rfl, rfl, rfl⟩

end Sys2Proof.Machine
end
